-- ==== Sys2Proof/Word.lean ====
section
/-! DEFINITION. The word types of the BTF (spec 00_scope.md R13): all values are unsigned. -/

namespace Sys2Proof

/-- `u8` (R13). -/
abbrev Byte := BitVec 8

/-- `u16` (R13): an operand field, a sub-address, a key word. -/
abbrev Half := BitVec 16

/-- `u32` (R13): STATUS and RESULT. -/
abbrev Word32 := BitVec 32

/-- `u64` (R13): a command word. -/
abbrev Word64 := BitVec 64

end Sys2Proof
end

