-- ==== Sys2Proof/Syntax.lean ====
section
/-! DEFINITION. The commands of the BTF (spec 30_encoding.md R132), one constructor per row of the
opcode table, each with the operand fields its row uses as the `u16` values of R131. Flag and class
fields are held as written; WellFormed says which of their bits are reserved. -/

namespace Sys2Proof

/-- The twelve opcodes of the map (R132). -/
inductive Op where
  | macRead | dfRead | dfWrite | macCmd | unsealKey
  | checksum | validate
  | addrCheck | sizeCheck
  | composeWord | composeValue | composeDword
deriving DecidableEq, Repr

/-- A command with its operands (R132). -/
inductive Instr where
  /-- MAC_READ (R235): A = MAC subcommand. -/
  | macRead (sub : Half)
  /-- DF_READ (R236): A = data-flash address. -/
  | dfRead (addr : Half)
  /-- DF_WRITE (R260): A = data-flash address, B = payload length. -/
  | dfWrite (addr len : Half)
  /-- MAC_CMD (R270): A = MAC subcommand, B[1:0] = delay class. -/
  | macCmd (sub cls : Half)
  /-- UNSEAL (R275): A, B = the two key words. -/
  | unsealKey (key1 key2 : Half)
  /-- CHECKSUM (R185): A = byte count over DBUF. -/
  | checksum (count : Half)
  /-- VALIDATE (R186): the frame in DBUF. -/
  | validate
  /-- ADDR_CHECK (R202): A = addr, B = min, C = max. -/
  | addrCheck (addr lo hi : Half)
  /-- SIZE_CHECK (R203): A = len. -/
  | sizeCheck (len : Half)
  /-- COMPOSE_WORD (R161): A = lsbIndex, B[0] = littleEndian, C[0] = BSEL. -/
  | composeWord (lsbIndex littleEndian bsel : Half)
  /-- COMPOSE_VALUE (R163): A = from, B = till, C[0] = BSEL. -/
  | composeValue (first last bsel : Half)
  /-- COMPOSE_DWORD (R164): C[0] = BSEL. -/
  | composeDword (bsel : Half)
deriving DecidableEq, Repr

/-- The opcode of a command. -/
def Instr.op : Instr → Op
  | .macRead _ => .macRead
  | .dfRead _ => .dfRead
  | .dfWrite _ _ => .dfWrite
  | .macCmd _ _ => .macCmd
  | .unsealKey _ _ => .unsealKey
  | .checksum _ => .checksum
  | .validate => .validate
  | .addrCheck _ _ _ => .addrCheck
  | .sizeCheck _ => .sizeCheck
  | .composeWord _ _ _ => .composeWord
  | .composeValue _ _ _ => .composeValue
  | .composeDword _ => .composeDword

/-- The pure commands (R142): they issue no bus primitive and wait no delay. -/
def Op.pure : Op → Bool
  | .macRead | .dfRead | .dfWrite | .macCmd | .unsealKey => false
  | .checksum | .validate | .addrCheck | .sizeCheck
  | .composeWord | .composeValue | .composeDword => true

end Sys2Proof
end

