-- ==== Sys2Proof/WellFormed.lean ====
section
/-! DEFINITION. Which commands have an encoding (spec 30_encoding.md R131, R133): the reserved bits of
flag and class fields are 0. Every other operand may be any `u16`. -/

namespace Sys2Proof

/-- A flag field uses bit 0 only; bits [15:1] are reserved (R131). -/
def flagFieldOk (f : Half) : Bool := f &&& 0xFFFE#16 == 0#16

/-- The delay class of MAC_CMD uses bits [1:0] only; bits [15:2] are reserved (R270). -/
def classFieldOk (f : Half) : Bool := f &&& 0xFFFC#16 == 0#16

/-- The command can be written as a legal command word (R133). -/
def Instr.wellFormed : Instr → Bool
  | .macRead _ => true
  | .dfRead _ => true
  | .dfWrite _ _ => true
  | .macCmd _ cls => classFieldOk cls
  | .unsealKey _ _ => true
  | .checksum _ => true
  | .validate => true
  | .addrCheck _ _ _ => true
  | .sizeCheck _ => true
  | .composeWord _ le bsel => flagFieldOk le && flagFieldOk bsel
  | .composeValue _ _ bsel => flagFieldOk bsel
  | .composeDword bsel => flagFieldOk bsel

end Sys2Proof
end

