-- ==== Sys2Proof/Decode.lean ====
section
/-! DEFINITION. The decoder of command words and, after it, the encoder (spec 30_encoding.md
R130-R133, R140), both from the opcode map of R132 with the match and mask of opcode_table.json. -/

namespace Sys2Proof

/-- OP, bits [7:0] (R130). -/
def fieldOp (w : Word64) : Byte := w.extractLsb' 0 8

/-- RSV, bits [15:8] (R130). -/
def fieldRsv (w : Word64) : Byte := w.extractLsb' 8 8

/-- A, bits [31:16] (R130). -/
def fieldA (w : Word64) : Half := w.extractLsb' 16 16

/-- B, bits [47:32] (R130). -/
def fieldB (w : Word64) : Half := w.extractLsb' 32 16

/-- C, bits [63:48] (R130). -/
def fieldC (w : Word64) : Half := w.extractLsb' 48 16

/-- The OP value of an opcode (R132). -/
def Op.code : Op → Byte
  | .macRead => 0x01#8
  | .dfRead => 0x02#8
  | .dfWrite => 0x03#8
  | .macCmd => 0x04#8
  | .unsealKey => 0x05#8
  | .checksum => 0x10#8
  | .validate => 0x11#8
  | .addrCheck => 0x18#8
  | .sizeCheck => 0x19#8
  | .composeWord => 0x20#8
  | .composeValue => 0x21#8
  | .composeDword => 0x22#8

/-- Every opcode of the map, in the order of R132. -/
def Op.all : List Op :=
  [.macRead, .dfRead, .dfWrite, .macCmd, .unsealKey, .checksum, .validate,
   .addrCheck, .sizeCheck, .composeWord, .composeValue, .composeDword]

/-- The opcode an OP value names, if the map lists it (R132). -/
def opOfCode (b : Byte) : Option Op := Op.all.find? fun op => op.code == b

/-- The mask of an opcode's row: 1 at every bit the command does not use as an operand (R133). -/
def Op.mask : Op → Word64
  | .macRead => 0xFFFFFFFF0000FFFF#64
  | .dfRead => 0xFFFFFFFF0000FFFF#64
  | .dfWrite => 0xFFFF00000000FFFF#64
  | .macCmd => 0xFFFFFFFC0000FFFF#64
  | .unsealKey => 0xFFFF00000000FFFF#64
  | .checksum => 0xFFFFFFFF0000FFFF#64
  | .validate => 0xFFFFFFFFFFFFFFFF#64
  | .addrCheck => 0x000000000000FFFF#64
  | .sizeCheck => 0xFFFFFFFF0000FFFF#64
  | .composeWord => 0xFFFEFFFE0000FFFF#64
  | .composeValue => 0xFFFE00000000FFFF#64
  | .composeDword => 0xFFFEFFFFFFFFFFFF#64

/-- The match word of an opcode's row: its OP value, every other masked bit 0 (R133). -/
def Op.matchWord (op : Op) : Word64 := op.code.setWidth 64

/-- The command an opcode and the three operand fields spell (R132). -/
def instrOfFields (a b c : Half) : Op → Instr
  | .macRead => .macRead a
  | .dfRead => .dfRead a
  | .dfWrite => .dfWrite a b
  | .macCmd => .macCmd a b
  | .unsealKey => .unsealKey a b
  | .checksum => .checksum a
  | .validate => .validate
  | .addrCheck => .addrCheck a b c
  | .sizeCheck => .sizeCheck a
  | .composeWord => .composeWord a b c
  | .composeValue => .composeValue a b c
  | .composeDword => .composeDword c

/-- Why a command word spells no command (R133, R140). -/
inductive Illegal where
  /-- OP is not in the opcode map. -/
  | opcode
  /-- OP is in the map and a reserved bit is 1. -/
  | reserved
deriving DecidableEq, Repr

/-- What a command word decodes to. -/
inductive Decoded where
  | command (i : Instr)
  | illegal (why : Illegal)
deriving DecidableEq, Repr

/-- The decoder (R140): first the opcode, then the reserved bits, then the fields. -/
def decode (w : Word64) : Decoded :=
  match opOfCode (fieldOp w) with
  | none => .illegal .opcode
  | some op =>
    if w &&& op.mask = op.matchWord then
      .command (instrOfFields (fieldA w) (fieldB w) (fieldC w) op)
    else .illegal .reserved

/-- The decoder on a table row's bits (bit 0 the least significant bit of the word): `nbits` bits of
`w`, every bit above them 0. A command word has 64 bits (R130); a row with a bit above them spells
nothing. -/
def decodeTableWord (nbits w : Nat) : Option Instr :=
  let bits := w % 2 ^ nbits
  if bits < 2 ^ 64 then
    match decode (BitVec.ofNat 64 bits) with
    | .command i => some i
    | .illegal _ => none
  else none

/-! The encoder. -/

/-- A command word from its fields, RSV = 0 (R130). -/
def packWord (op : Byte) (a b c : Half) : Word64 :=
  op.setWidth 64 ||| a.setWidth 64 <<< 16 ||| b.setWidth 64 <<< 32 ||| c.setWidth 64 <<< 48

/-- The operand field A of a command, 0 where the command does not use it (R132). -/
def Instr.operandA : Instr → Half
  | .macRead a => a
  | .dfRead a => a
  | .dfWrite a _ => a
  | .macCmd a _ => a
  | .unsealKey a _ => a
  | .checksum a => a
  | .validate => 0#16
  | .addrCheck a _ _ => a
  | .sizeCheck a => a
  | .composeWord a _ _ => a
  | .composeValue a _ _ => a
  | .composeDword _ => 0#16

/-- The operand field B of a command, 0 where the command does not use it (R132). -/
def Instr.operandB : Instr → Half
  | .macRead _ => 0#16
  | .dfRead _ => 0#16
  | .dfWrite _ b => b
  | .macCmd _ b => b
  | .unsealKey _ b => b
  | .checksum _ => 0#16
  | .validate => 0#16
  | .addrCheck _ b _ => b
  | .sizeCheck _ => 0#16
  | .composeWord _ b _ => b
  | .composeValue _ b _ => b
  | .composeDword _ => 0#16

/-- The operand field C of a command, 0 where the command does not use it (R132). -/
def Instr.operandC : Instr → Half
  | .macRead _ => 0#16
  | .dfRead _ => 0#16
  | .dfWrite _ _ => 0#16
  | .macCmd _ _ => 0#16
  | .unsealKey _ _ => 0#16
  | .checksum _ => 0#16
  | .validate => 0#16
  | .addrCheck _ _ c => c
  | .sizeCheck _ => 0#16
  | .composeWord _ _ c => c
  | .composeValue _ _ c => c
  | .composeDword c => c

/-- The command word of a command (R130, R132). Of an ill-formed command it carries the reserved bits
as they stand, and does not decode. -/
def encode (i : Instr) : Word64 := packWord i.op.code i.operandA i.operandB i.operandC

end Sys2Proof
end

