-- ==== Sys2Proof/Machine/State.lean ====
section
/-! DEFINITION. The state of the BTF and of the agents around it (spec 10_state.md), as plain data, and
its value after reset (R60). INVENTORY.md lists every field with its rule and reset value. -/

namespace Sys2Proof.Machine

/-- The internal buffers (20_memory.md R80 (d)). -/
inductive Buf where
  /-- DBUF, 36 bytes: host-written data (R54). -/
  | dbuf
  /-- OUT, 32 bytes: the payload of the last successful block read (R53). -/
  | out
  /-- FRAME, 36 bytes: the last 36-byte response received (R55). -/
  | frame
deriving DecidableEq, Repr

/-- A buffer's contents: its written bytes by index. A byte not listed has not been written since reset
and has no value (R61; notes/assumptions/1.md). -/
abbrev Memory := List Host.Cell

/-- The canonical form: indices strictly rising. No entry can equal what an unlisted index reads as,
since that is no value. -/
abbrev Memory.wf (m : Memory) : Prop := List.Pairwise (fun x y : Host.Cell => x.1 < y.1) m

/-- The sequencer's phases (R56). -/
inductive Phase where
  | idle | wCmd | settle | wPtr | rBlk | wPay | wTrl | wKey1 | wKey2
deriving DecidableEq, Repr

/-- The completion codes (R47); 6 to 15 are never written. -/
inductive Code where
  | ok | rangeError | checksumError | ioError | codecError | illegalCommand
deriving DecidableEq, Repr

/-- A bus primitive with its arguments (R17, R35). -/
inductive BusReq where
  /-- `BusWrite(reg, data)`. -/
  | write (reg : Byte) (data : List Byte)
  /-- `BusRead(n)`. -/
  | read (n : Byte)
deriving DecidableEq, Repr

/-- The collaborator's answer to a bus primitive (R33, R93). -/
inductive BusAnswer where
  /-- `ok`, with the bytes a `BusRead` brought. An answer to a `BusWrite` brings none: the BTF looks at
  none there (notes/assumptions/8.md). -/
  | ok (bytes : List Byte)
  /-- `ioerr`. -/
  | ioerr
deriving DecidableEq, Repr

/-- NEXT of the settle timer (R57): what follows the delay. -/
inductive AfterSettle where
  /-- Enter W_PTR: the pointer write of a block read (R222). -/
  | pointerWrite
  /-- Complete with OK (R260, R270, R275). -/
  | complete
deriving DecidableEq, Repr

/-- The settle timer (R57). -/
structure SettleTimer where
  /-- T0, in ms: when the preceding bus primitive answered. -/
  t0 : Nat
  /-- D, in ms. -/
  delay : Nat
  /-- NEXT. -/
  next : AfterSettle
deriving DecidableEq, Repr

/-- What the host may send (R32), and a raw write access to its window (R41). -/
inductive HostAction where
  /-- `IssueCmd(w)`: one 8-byte write to CMD. -/
  | issueCmd (w : Word64)
  /-- `WriteDbuf(i, v)`: one byte write to DBUF. -/
  | writeDbuf (i : Nat) (v : Byte)
  /-- `Reset` (70_reset_and_hazards.md R340). -/
  | reset
  /-- `ReadReg(offset, n)`. -/
  | readReg (off : Byte) (n : Nat)
  /-- A write of `data` at window offset `off`: one of the first two, or an access that has no step
  (R41, R362). -/
  | writeReg (off : Byte) (data : List Byte)
deriving DecidableEq, Repr

/-- One move of one agent (R30). -/
inductive Event where
  /-- The host acts. -/
  | host (a : HostAction)
  /-- The sequencer takes its own step: it leaves SETTLE if it may (60_exceptions.md R330). -/
  | sequencer
  /-- The collaborator answers the pending bus request (R33). -/
  | answer (a : BusAnswer)
  /-- The collaborator answers a request that a reset abandoned (70_reset_and_hazards.md R342). -/
  | lateAnswer (a : BusAnswer)
  /-- Time advances by `ms` (R331). -/
  | elapse (ms : Nat)
deriving DecidableEq, Repr

/-- What the observable history records (20_memory.md R108). -/
inductive Obs where
  /-- `IssueCmd` or `WriteDbuf`, accepted or dropped, or `Reset`. -/
  | host (a : HostAction)
  /-- A host read, with the bytes it got. -/
  | hostRead (off : Byte) (n : Nat) (bytes : List Byte)
  /-- A bus request, with its bytes. -/
  | request (r : BusReq)
  /-- The answer to the pending request. -/
  | answer (a : BusAnswer)
  /-- The discarded answer to an abandoned request. -/
  | lateAnswer (a : BusAnswer)
  /-- SETTLE entered with delay `d` at time `t0`. -/
  | settleEnter (d t0 : Nat)
  /-- SETTLE left by the sequencer, delay `d`, at time `t`; not by a Reset (notes/assumptions/20.md). -/
  | settleExit (d t : Nat)
deriving DecidableEq, Repr

/-- The machine and its agents. -/
structure State where
  /-- CMD (R42): the last accepted command word. -/
  cmd : Word64
  /-- STATUS.BUSY (R44). -/
  busy : Bool
  /-- STATUS.DONE (R45). -/
  done : Bool
  /-- STATUS.REJECT (R46). -/
  reject : Bool
  /-- STATUS.CODE (R47). -/
  code : Code
  /-- STATUS.DETAIL (R48). -/
  detail : Byte
  /-- RESULT (R51). -/
  result : Word32
  /-- OUT_LEN (R52). -/
  outLen : Byte
  /-- OUT (R53). -/
  out : Memory
  /-- DBUF (R54). -/
  dbuf : Memory
  /-- FRAME (R55). -/
  frame : Memory
  /-- PHASE (R56), which STATUS.PHASE shows (R49). -/
  phase : Phase
  /-- The settle timer (R57), absent where it is inactive. -/
  timer : Option SettleTimer
  /-- The pending bus request (R58). -/
  pending : Option BusReq
  /-- Real time in ms (R36); the environment's. -/
  now : Nat
  /-- Bus calls a reset abandoned that have not been answered yet (R342); the environment's. -/
  abandoned : Nat
  /-- The observable history, oldest first (R108); the environment's. -/
  history : List Obs
  /-- The agents' moves to come, the next one first; the model's own (notes/assumptions/2.md). -/
  schedule : List Event
deriving DecidableEq, Repr

/-- The state after reset (R60): control registers 0, PHASE IDLE, no timer, no request, no buffer byte
written. The environment's fields start empty (notes/assumptions/5.md). -/
def State.reset : State where
  cmd := 0#64
  busy := false
  done := false
  reject := false
  code := .ok
  detail := 0#8
  result := 0#32
  outLen := 0#8
  out := []
  dbuf := []
  frame := []
  phase := .idle
  timer := none
  pending := none
  now := 0
  abandoned := 0
  history := []
  schedule := []

/-- Why the machine stops with a fault. -/
inductive Fault where
  /-- A read of a buffer byte that nothing has written since reset (R61). Raised by a host read of it,
  by CHECKSUM, VALIDATE and the COMPOSE commands that read it as an operand, and by DF_WRITE for its
  payload. Safe: a real BTF goes on with some byte, the model says nothing about that run. -/
  | unwritten (b : Buf) (index : Nat)
deriving DecidableEq, Repr

/-- Why the machine refuses a step. -/
inductive Refusal where
  /-- The arm of an instruction that has no meaning yet. No arm of this model uses it. Safe. -/
  | notModelled (mnemonic : String)
  /-- A host access touches a reserved offset of the window (R41, R362). Raised by host reads and raw
  writes. Safe: the access has no step in a model. -/
  | reservedOffset (off : Nat)
  /-- A host write to STATUS, RESULT, OUT_LEN, OUT or FRAME (R41, R362). Raised by raw writes. Safe. -/
  | readOnlyRegister (off : Nat)
  /-- A host write that touches CMD and is not one 8-byte access at offset 0x00 (R41, R362). Raised by
  raw writes. Safe. -/
  | partialCmdWrite (off : Nat)
  /-- A host write of other than one byte to DBUF: the only write the host has there is a byte write
  (R32, R54). Raised by raw writes. Safe. -/
  | dbufAccessWidth (off : Nat)
  /-- A `WriteDbuf(i, v)` with `i` past DBUF (R32). Raised by that host action. Safe. -/
  | noSuchDbufByte (i : Nat)
  /-- A host write of no bytes: no action of R32. Raised by raw writes. Safe. -/
  | emptyWrite (off : Nat)
  /-- The collaborator answers where no bus call is outstanding: it answers each call once (R360), and a
  run that breaks a duty is outside the model. Raised by the collaborator's moves. Safe. -/
  | answerWithoutCall
deriving DecidableEq, Repr

/-- What an operation answers: a value, a fault or a refusal. -/
abbrev Attempt (α : Type) := Host.Outcome α Fault Refusal

end Sys2Proof.Machine
end

