-- ==== Sys2Proof/Machine/Flags.lean ====
section
/-! DEFINITION. The fields of STATUS: their encodings, every completion cause with its CODE and DETAIL,
and the STATUS word (spec 10_state.md R43, R47-R50). The BTF has no condition codes (R38). -/

namespace Sys2Proof.Machine

/-- The encoding of CODE (R47). -/
def Code.bits : Code → BitVec 4
  | .ok => 0#4
  | .rangeError => 1#4
  | .checksumError => 2#4
  | .ioError => 3#4
  | .codecError => 4#4
  | .illegalCommand => 5#4

/-- The encoding of PHASE (R49). -/
def Phase.bits : Phase → BitVec 4
  | .idle => 0#4
  | .wCmd => 1#4
  | .settle => 2#4
  | .wPtr => 3#4
  | .rBlk => 4#4
  | .wPay => 5#4
  | .wTrl => 6#4
  | .wKey1 => 7#4
  | .wKey2 => 8#4

/-- Why a command completes: the rows of R48. -/
inductive Cause where
  /-- The command succeeded. -/
  | success
  /-- RANGE_ERROR(ADDR). -/
  | rangeAddr
  /-- RANGE_ERROR(SIZE). -/
  | rangeSize
  /-- CHECKSUM_ERROR(SUM_ZERO). -/
  | sumZero
  /-- CHECKSUM_ERROR(LENGTH). -/
  | length
  /-- IO_ERROR of the bus call of a phase. -/
  | io (p : Phase)
  /-- IO_ERROR(R_BLK_COUNT): a read that brought a count other than 36. -/
  | readCount
  /-- CODEC_ERROR(NEG_INDEX). -/
  | negIndex
  /-- CODEC_ERROR(BEYOND). -/
  | beyond
  /-- CODEC_ERROR(ORDER). -/
  | order
  /-- CODEC_ERROR(SPAN). -/
  | span
  /-- ILLEGAL_COMMAND(OPCODE). -/
  | opcode
  /-- ILLEGAL_COMMAND(RESERVED). -/
  | reserved
deriving DecidableEq, Repr

/-- STATUS.CODE of a cause (R48). -/
def Cause.code : Cause → Code
  | .success => .ok
  | .rangeAddr => .rangeError
  | .rangeSize => .rangeError
  | .sumZero => .checksumError
  | .length => .checksumError
  | .io _ => .ioError
  | .readCount => .ioError
  | .negIndex => .codecError
  | .beyond => .codecError
  | .order => .codecError
  | .span => .codecError
  | .opcode => .illegalCommand
  | .reserved => .illegalCommand

/-- STATUS.DETAIL of a cause (R48): for IO_ERROR the failing phase's encoding, with bit 4 set for a
wrong byte count. -/
def Cause.detail : Cause → Byte
  | .success => 0x00#8
  | .rangeAddr => 0x01#8
  | .rangeSize => 0x02#8
  | .sumZero => 0x01#8
  | .length => 0x02#8
  | .io p => p.bits.setWidth 8
  | .readCount => 0x10#8 ||| Phase.rBlk.bits.setWidth 8
  | .negIndex => 0x01#8
  | .beyond => 0x02#8
  | .order => 0x03#8
  | .span => 0x04#8
  | .opcode => 0x01#8
  | .reserved => 0x02#8

/-- The STATUS word (R43), its reserved bits 0 (R50). -/
def statusWord (s : State) : Word32 :=
  (BitVec.ofBool s.busy).setWidth 32
    ||| (BitVec.ofBool s.done).setWidth 32 <<< 1
    ||| (BitVec.ofBool s.reject).setWidth 32 <<< 2
    ||| s.code.bits.setWidth 32 <<< 4
    ||| s.detail.setWidth 32 <<< 8
    ||| s.phase.bits.setWidth 32 <<< 16

end Sys2Proof.Machine
end

