-- ==== Sys2Proof/Config.lean ====
section
/-! DEFINITION. The implementation parameters the spec gives a value (00_scope.md R12). Its three
OPEN parameters are no constants here: DEV_ADDR and BUS_FRAMING belong to the bus collaborator and
never reach the BTF (notes/assumptions/11.md); TIME_SOURCE is the `elapse` moves of the schedule
(notes/assumptions/4.md). -/

namespace Sys2Proof.Config

/-- FRAME_SIZE: bytes in a block-read response frame. -/
abbrev frameSize : Nat := 36

/-- PAYLOAD_MIN: least payload length of a request. -/
abbrev payloadMin : Nat := 1

/-- PAYLOAD_MAX: greatest payload length. -/
abbrev payloadMax : Nat := 32

/-- SERVICE_BYTES: address (2), checksum (1) and length (1). -/
abbrev serviceBytes : Nat := 4

/-- ADDR_LO_INDEX: frame index of the echoed sub-address's low byte. -/
abbrev addrLoIndex : Nat := 0

/-- ADDR_HI_INDEX: frame index of the echoed sub-address's high byte. -/
abbrev addrHiIndex : Nat := 1

/-- PAYLOAD_INDEX: frame index of the first payload byte. -/
abbrev payloadIndex : Nat := 2

/-- CHECKSUM_INDEX: frame index of the checksum byte. -/
abbrev checksumIndex : Nat := 34

/-- LENGTH_INDEX: frame index of the length byte. -/
abbrev lengthIndex : Nat := 35

/-- REG_MAC: the manufacturer-access control register. -/
abbrev regMac : Byte := 0x3E#8

/-- REG_CKS: the device register that receives the checksum byte of a write. -/
abbrev regCks : Byte := 0x60#8

/-- REG_LEN: the device register behind frame index 35. The BTF never addresses it; the value rests
on 20_memory.md R84, whose premise is general knowledge. PRESUMED (notes/assumptions/15.md). -/
abbrev regLen : Byte := 0x61#8

/-- UNSEAL_REG: the device register the unseal key words go to. -/
abbrev unsealReg : Byte := regMac

/-- DF_MIN: lowest data-flash address. -/
abbrev dfMin : Half := 0x4000#16

/-- DF_MAX: highest data-flash address. -/
abbrev dfMax : Half := 0x5FFF#16

/-- T_READ, in ms: settle delay of a block read. -/
abbrev tRead : Nat := 5

/-- T_DEVICE_RESET, in ms. -/
abbrev tDeviceReset : Nat := 500

/-- T_FET, in ms. -/
abbrev tFet : Nat := 500

/-- T_PF_RESET, in ms. -/
abbrev tPfReset : Nat := 1000

/-- T_DF_WRITE, in ms. -/
abbrev tDfWrite : Nat := 200

/-- T_UNSEAL, in ms. -/
abbrev tUnseal : Nat := 1000

/-- DBUF_SIZE: bytes in the host data buffer. -/
abbrev dbufSize : Nat := 36

/-- OUT_SIZE: bytes in the output buffer. -/
abbrev outSize : Nat := 32

end Sys2Proof.Config
end

