-- ==== Sys2Proof/Machine/Operands.lean ====
section
/-! DEFINITION. The operand forms: flag fields, buffer select, delay class, byte halves, and the
composition of bytes (spec 00_scope.md R14, 30_encoding.md R131, 40_codec.md R160, R162,
44_transport_write.md R271). -/

namespace Sys2Proof.Machine

open Sys2Proof.Config

/-- `lo8(v)` (R14). -/
def lo8 (v : Half) : Byte := v.extractLsb' 0 8

/-- `hi8(v)` (R14). -/
def hi8 (v : Half) : Byte := v.extractLsb' 8 8

/-- A 16-bit value on the wire, low byte first (20_memory.md R86). -/
def wireHalf (v : Half) : List Byte := [lo8 v, hi8 v]

/-- A one-bit flag is bit 0 of its field (R131). -/
def flagOf (f : Half) : Bool := f.getLsbD 0

/-- The buffer BSEL selects (R160): DBUF for 0, OUT for 1. -/
def selectBuf (bsel : Half) : Buf := if flagOf bsel then .out else .dbuf

/-- The number of bytes of a buffer (20_memory.md R80 (d)). -/
def Buf.size : Buf → Nat
  | .dbuf => dbufSize
  | .out => outSize
  | .frame => frameSize

/-- The settle delay of a MAC_CMD's delay class B[1:0], in ms (R271). -/
def classDelay (cls : Half) : Nat :=
  match (cls.extractLsb' 0 2).toNat with
  | 0 => tRead
  | 1 => tDeviceReset
  | 2 => tFet
  | _ => tPfReset

/-- A 16-bit value from its high and low bytes, zero-extended to 32 bits (R161). -/
def composeBytes (hi lo : Byte) : Word32 := (hi.setWidth 16 <<< 8 ||| lo.setWidth 16 : Half).setWidth 32

/-- The little-endian value of at most four bytes, the first the least significant (R162). -/
def littleEndianValue : List Byte → Word32
  | [] => 0#32
  | b :: bs => b.setWidth 32 ||| littleEndianValue bs <<< 8

end Sys2Proof.Machine
end

