-- ==== Sys2Proof/Machine/Ops.lean ====
section
/-! DEFINITION. The named operations: buffer memory, and what a command does to the sequencer: be
accepted, issue a bus request, enter SETTLE, and end. Ending, with a code, is the BTF's only exception
mechanism (spec 00_scope.md R19, 60_exceptions.md R305, R310); there is no return from it (R306). -/

namespace Sys2Proof.Machine

open Sys2Proof.Config

/-- Go on with the value an operation answers; a fault or a refusal stays. -/
def andThen {α β : Type} (o : Attempt α) (f : α → Attempt β) : Attempt β :=
  match o with
  | .next a => f a
  | .fault r => .fault r
  | .refused r => .refused r

/-! Buffer memory. -/

/-- The byte at an index, if it has been written since reset (10_state.md R61). -/
def Memory.read : Memory → Nat → Option Byte
  | [], _ => none
  | (k, v) :: m, a => if k = a then some v else Memory.read m a

/-- Write one byte, keeping the canonical form. -/
def Memory.write : Memory → Nat → Byte → Memory
  | [], a, v => [(a, v)]
  | (k, x) :: m, a, v =>
    if a < k then (a, v) :: (k, x) :: m
    else if a = k then (a, v) :: m
    else (k, x) :: Memory.write m a v

/-- Write consecutive bytes from an index on. -/
def Memory.writeRange : Memory → Nat → List Byte → Memory
  | m, _, [] => m
  | m, a, b :: bs => Memory.writeRange (Memory.write m a b) (a + 1) bs

/-- The contents of a buffer. -/
def State.memory (s : State) : Buf → Memory
  | .dbuf => s.dbuf
  | .out => s.out
  | .frame => s.frame

/-- Read one byte of a buffer; a byte not written since reset faults (R61). -/
def readBuf (b : Buf) (i : Nat) (s : State) : Attempt Byte :=
  match Memory.read (s.memory b) i with
  | some v => .next v
  | none => .fault (.unwritten b i)

/-- Read `n` consecutive bytes of a buffer from index `i`; the first unwritten one faults (R61). -/
def readRange (b : Buf) (i : Nat) : Nat → State → Attempt (List Byte)
  | 0, _ => .next []
  | n + 1, s =>
    andThen (readBuf b i s) fun v =>
    andThen (readRange b (i + 1) n s) fun vs => .next (v :: vs)

/-! The observable history. -/

/-- Record one observable event (20_memory.md R108). -/
def State.observe (o : Obs) (s : State) : State := { s with history := s.history ++ [o] }

/-! The life of a command. -/

/-- A command word is accepted (R42): CMD latches it, BUSY is set, DONE, CODE and DETAIL are
cleared. -/
def State.accept (w : Word64) (s : State) : State :=
  { s with cmd := w, busy := true, done := false, code := .ok, detail := 0#8 }

/-- The command ends in this step (R305): `raise` of an error, or `complete()` for `Cause.success`.
PHASE goes to IDLE, where no request is pending (R58) and no timer runs (R57). Nothing else
changes. -/
def State.raise (c : Cause) (s : State) : State :=
  { s with
    code := c.code
    detail := c.detail
    done := true
    busy := false
    phase := .idle
    timer := none
    pending := none }

/-- `complete()`: the command ends with CODE = OK (R19, R305). -/
def State.complete (s : State) : State := s.raise .success

/-- A pure command succeeds: `RESULT <- v; complete()` (R51). -/
def State.completeWith (v : Word32) (s : State) : State := State.complete { s with result := v }

/-- The sequencer enters a phase and issues its bus request (R58). -/
def State.issue (p : Phase) (r : BusReq) (s : State) : State :=
  State.observe (.request r) { s with phase := p, timer := none, pending := some r }

/-- The sequencer enters SETTLE: T0 is the time now, when the bus call before it answered (R57,
R330). -/
def State.settle (d : Nat) (next : AfterSettle) (s : State) : State :=
  State.observe (.settleEnter d s.now)
    { s with phase := .settle, timer := some ⟨s.now, d, next⟩, pending := none }

end Sys2Proof.Machine
end

