-- ==== Sys2Proof/Machine/Codec.lean ====
section
/-! DEFINITION. The codec unit (spec 40_codec.md): COMPOSE_WORD, COMPOSE_VALUE, COMPOSE_DWORD. -/

namespace Sys2Proof.Machine

open Sys2Proof.Config

/-- The composeValue function and its completion (R162, R163): the checks in the order written, then
the bytes `first..last`, little-endian, into RESULT. -/
def composeValueOf (b : Buf) (first last : Nat) (s : State) : Attempt State :=
  if last ≤ first then .next (s.raise .order)
  else if 3 < last - first then .next (s.raise .span)
  else if b.size ≤ last then .next (s.raise .beyond)
  else
    andThen (readRange b first (last - first + 1) s) fun bytes =>
    .next (s.completeWith (littleEndianValue bytes))

/-- COMPOSE_WORD of the low byte at `i` and the high byte at `j`, both inside the buffer or BEYOND
(R161). -/
def composeWordOf (b : Buf) (i j : Nat) (s : State) : Attempt State :=
  if b.size ≤ i ∨ b.size ≤ j then .next (s.raise .beyond)
  else
    andThen (readBuf b i s) fun lo =>
    andThen (readBuf b j s) fun hi =>
    .next (s.completeWith (composeBytes hi lo))

/-- COMPOSE_WORD (R161): the high byte's index is `i + 1` little-endian and `i - 1` otherwise, where
`i = 0` has none. -/
def execComposeWord (lsbIndex littleEndian bsel : Half) (s : State) : Attempt State :=
  let i := lsbIndex.toNat
  if flagOf littleEndian then composeWordOf (selectBuf bsel) i (i + 1) s
  else if i = 0 then .next (s.raise .negIndex)
  else composeWordOf (selectBuf bsel) i (i - 1) s

/-- COMPOSE_VALUE (R163). -/
def execComposeValue (first last bsel : Half) (s : State) : Attempt State :=
  composeValueOf (selectBuf bsel) first.toNat last.toNat s

/-- COMPOSE_DWORD (R164). -/
def execComposeDword (bsel : Half) (s : State) : Attempt State :=
  composeValueOf (selectBuf bsel) 0 3 s

end Sys2Proof.Machine
end

