-- ==== Sys2Proof/Machine/Gate.lean ====
section
/-! DEFINITION. The gate unit (spec 42_gate.md): the address and payload-size predicates, the gates of
the data-flash commands, and the commands ADDR_CHECK and SIZE_CHECK. -/

namespace Sys2Proof.Machine

open Sys2Proof.Config

/-- `isAddressValid(addr, min, max)` (R200), unsigned, inclusive at both ends. -/
def isAddressValid (addr lo hi : Half) : Bool := lo.toNat ≤ addr.toNat && addr.toNat ≤ hi.toNat

/-- `isPayloadSizeValid(len)` (R201). -/
def isPayloadSizeValid (len : Half) : Bool := payloadMin ≤ len.toNat && len.toNat ≤ payloadMax

/-- The data-flash address gate (R210). -/
def dataFlashGate (addr : Half) : Bool := isAddressValid addr dfMin dfMax

/-- The value of a predicate in RESULT (R202, R203). -/
def truthValue (b : Bool) : Word32 := if b then 1#32 else 0#32

/-- ADDR_CHECK (R202). -/
def execAddrCheck (addr lo hi : Half) (s : State) : Attempt State :=
  .next (s.completeWith (truthValue (isAddressValid addr lo hi)))

/-- SIZE_CHECK (R203). -/
def execSizeCheck (len : Half) (s : State) : Attempt State :=
  .next (s.completeWith (truthValue (isPayloadSizeValid len)))

end Sys2Proof.Machine
end

