-- ==== Sys2Proof/Machine/Validator.lean ====
section
/-! DEFINITION. The validator unit (spec 41_validator.md): the checksum and validate functions, and the
commands CHECKSUM and VALIDATE. -/

namespace Sys2Proof.Machine

open Sys2Proof.Config

/-- The exact sum of a byte sequence (R14). -/
def byteSum : List Byte → Nat
  | [] => 0
  | b :: bs => b.toNat + byteSum bs

/-- `trunc8(v) = v mod 256` (R14). -/
def trunc8 (v : Nat) : Byte := BitVec.ofNat 8 v

/-- The checksum function (R180): the complement of the truncated sum of `data[0..len)`. -/
def checksum (data : List Byte) (len : Nat) : Byte := ~~~(trunc8 (byteSum (data.take len)))

/-- A length byte a frame may carry: 4 to 36 (R182). -/
def lengthOk (l : Byte) : Bool := serviceBytes ≤ l.toNat && l.toNat ≤ frameSize

/-- The validity sum of a frame from its checksum byte and its covered bytes (R181). -/
def validitySum (cks : Byte) (covered : List Byte) : Byte := trunc8 (cks.toNat + byteSum covered)

/-- How many bytes at the head of a frame its validity sum covers: `L - 2` (R181). -/
def coveredBytes (l : Byte) : Nat := l.toNat - 2

/-- A byte of a received frame, by index below 36 (R124). -/
def frameByte (frame : List Byte) (i : Nat) : Byte := frame.getD i 0#8

/-- What the validate function says of a frame (R182). -/
inductive Verdict where
  | valid | badLength | sumZero
deriving DecidableEq, Repr

/-- The validate function on a 36-byte frame (R182): any non-zero sum is valid (R183). -/
def validate (frame : List Byte) : Verdict :=
  let l := frameByte frame lengthIndex
  if lengthOk l then
    if validitySum (frameByte frame checksumIndex) (frame.take (coveredBytes l)) = 0#8 then .sumZero
    else .valid
  else .badLength

/-- RESULT of VALIDATE (R186) from the length test and the validity sum. -/
def validateResult (lok : Bool) (sum : Byte) : Word32 :=
  let valid := lok && sum != 0#8
  sum.setWidth 32 <<< 8 ||| (BitVec.ofBool lok).setWidth 32 <<< 1 ||| (BitVec.ofBool valid).setWidth 32

/-- CHECKSUM (R185). -/
def execChecksum (count : Half) (s : State) : Attempt State :=
  if dbufSize < count.toNat then .next (s.raise .beyond)
  else
    andThen (readRange .dbuf 0 count.toNat s) fun data =>
    .next (s.completeWith ((checksum data count.toNat).setWidth 32))

/-- VALIDATE (R186). It reads the length byte and, where that is in range, the checksum byte and the
covered bytes; no padding byte (R181). -/
def execValidate (s : State) : Attempt State :=
  andThen (readBuf .dbuf lengthIndex s) fun l =>
  if lengthOk l then
    andThen (readBuf .dbuf checksumIndex s) fun cks =>
    andThen (readRange .dbuf 0 (coveredBytes l) s) fun covered =>
    .next (s.completeWith (validateResult true (validitySum cks covered)))
  else .next (s.completeWith (validateResult false 0#8))

end Sys2Proof.Machine
end

