-- ==== Sys2Proof/Machine/Transport.lean ====
section
/-! DEFINITION. The transport commands in the step that accepts them (spec 43_transport_read.md,
44_transport_write.md): their gates, and their first bus request in the wire formats of 30_encoding.md.
How a command goes on at each bus answer is Machine/Sequencer.lean. -/

namespace Sys2Proof.Machine

open Sys2Proof.Config

/-- Format WCMD, the command write `[REG_MAC, lo8(A), hi8(A)]` (R121). -/
def commandWrite (a : Half) : BusReq := .write regMac (wireHalf a)

/-- Format WPTR, the bare pointer write `[REG_MAC]` (R122). -/
def pointerWrite : BusReq := .write regMac []

/-- Format RBLK, the 36-byte block read (R123). -/
def blockRead : BusReq := .read (BitVec.ofNat 8 frameSize)

/-- The data bytes of a data-flash write, `[lo8(A), hi8(A)]` and the payload (R260). -/
def payloadData (a : Half) (payload : List Byte) : List Byte := wireHalf a ++ payload

/-- Format WDFP, the data-flash payload write (R125). -/
def payloadWrite (a : Half) (payload : List Byte) : BusReq := .write regMac (payloadData a payload)

/-- Format WTRL, the checksum and length write that follows a payload write of the bytes `tx`, that is
`n + 2` of them: `[REG_CKS, checksum(tx, n + 2), n + 4]` (R126). -/
def trailerWrite (tx : List Byte) : BusReq :=
  .write regCks [checksum tx tx.length, BitVec.ofNat 8 (tx.length + 2)]

/-- Format WKEY, an unseal key word write (R127). -/
def keyWrite (k : Half) : BusReq := .write unsealReg (wireHalf k)

/-- MAC_READ (R235): the block read begins with its command write (R221); no gate (R213). -/
def execMacRead (sub : Half) (s : State) : Attempt State :=
  .next (s.issue .wCmd (commandWrite sub))

/-- DF_READ (R236): the address gate, then the block read. -/
def execDfRead (addr : Half) (s : State) : Attempt State :=
  if dataFlashGate addr then .next (s.issue .wCmd (commandWrite addr))
  else .next (s.raise .rangeAddr)

/-- DF_WRITE (R260): the address gate, the size gate (R212), then the payload write of `DBUF[0..n)`. -/
def execDfWrite (addr len : Half) (s : State) : Attempt State :=
  if dataFlashGate addr then
    if isPayloadSizeValid len then
      andThen (readRange .dbuf 0 len.toNat s) fun payload =>
      .next (s.issue .wPay (payloadWrite addr payload))
    else .next (s.raise .rangeSize)
  else .next (s.raise .rangeAddr)

/-- MAC_CMD (R270): the command write; the class in `_cls` counts when it is answered. -/
def execMacCmd (sub _cls : Half) (s : State) : Attempt State :=
  .next (s.issue .wCmd (commandWrite sub))

/-- UNSEAL (R275): the first key word write; the second follows its answer. -/
def execUnseal (key1 _key2 : Half) (s : State) : Attempt State :=
  .next (s.issue .wKey1 (keyWrite key1))

end Sys2Proof.Machine
end

