-- ==== Sys2Proof/Machine/Dispatch.lean ====
section
/-! DEFINITION. The family rule of each command (spec 30_encoding.md R132, R140), in the step that
accepts it: one arm per constructor of Instr. -/

namespace Sys2Proof.Machine

def exec (i : Instr) (s : State) : Host.Outcome State Fault Refusal :=
  match i with
  | .macRead sub => Sys2Proof.Machine.execMacRead sub s
  | .dfRead addr => Sys2Proof.Machine.execDfRead addr s
  | .dfWrite addr len => Sys2Proof.Machine.execDfWrite addr len s
  | .macCmd sub cls => Sys2Proof.Machine.execMacCmd sub cls s
  | .unsealKey key1 key2 => Sys2Proof.Machine.execUnseal key1 key2 s
  | .checksum count => Sys2Proof.Machine.execChecksum count s
  | .validate => Sys2Proof.Machine.execValidate s
  | .addrCheck addr lo hi => Sys2Proof.Machine.execAddrCheck addr lo hi s
  | .sizeCheck len => Sys2Proof.Machine.execSizeCheck len s
  | .composeWord lsbIndex littleEndian bsel => Sys2Proof.Machine.execComposeWord lsbIndex littleEndian bsel s
  | .composeValue first last bsel => Sys2Proof.Machine.execComposeValue first last bsel s
  | .composeDword bsel => Sys2Proof.Machine.execComposeDword bsel s

end Sys2Proof.Machine
end

