-- ==== Sys2Proof/Machine/HostPort.lean ====
section
/-! DEFINITION. The host port (spec 10_state.md R32, R34, R41-R55, 70_reset_and_hazards.md R340, R362):
issuing commands, writing DBUF, reading the register window, raw writes, and reset. -/

namespace Sys2Proof.Machine

open Sys2Proof.Config

/-- What stands at an offset of the host window (R41); `none` is a reserved offset. -/
inductive WindowCell where
  /-- Byte `k` of CMD, the low byte first (R34). -/
  | cmd (k : Nat)
  /-- Byte `k` of STATUS. -/
  | status (k : Nat)
  /-- Byte `k` of RESULT. -/
  | result (k : Nat)
  /-- OUT_LEN. -/
  | outLen
  /-- Byte `i` of a buffer. -/
  | buffer (b : Buf) (i : Nat)
deriving DecidableEq, Repr

/-- The host register map (R41). -/
def windowCell (off : Nat) : Option WindowCell :=
  if off < 0x08 then some (.cmd off)
  else if off < 0x0C then some (.status (off - 0x08))
  else if off < 0x10 then some (.result (off - 0x0C))
  else if off = 0x10 then some .outLen
  else if off < 0x20 then none
  else if off < 0x40 then some (.buffer .out (off - 0x20))
  else if off < 0x64 then some (.buffer .dbuf (off - 0x40))
  else if off < 0x80 then none
  else if off < 0xA4 then some (.buffer .frame (off - 0x80))
  else none

/-- Byte `k` of a register, the lowest offset holding bits [7:0] (R34). -/
def registerByte {n : Nat} (v : BitVec n) (k : Nat) : Byte := v.extractLsb' (8 * k) 8

/-- The byte a cell of the window reads as. -/
def readCell (c : WindowCell) (s : State) : Attempt Byte :=
  match c with
  | .cmd k => .next (registerByte s.cmd k)
  | .status k => .next (registerByte (statusWord s) k)
  | .result k => .next (registerByte s.result k)
  | .outLen => .next s.outLen
  | .buffer b i => readBuf b i s

/-- The first of `n` offsets from `off` on that is reserved or past the window, if any (R41). -/
def firstReserved (off : Nat) : Nat → Option Nat
  | 0 => none
  | n + 1 => if (windowCell off).isSome then firstReserved (off + 1) n else some off

/-- Read `n` consecutive mapped offsets. -/
def readCells (off : Nat) : Nat → State → Attempt (List Byte)
  | 0, _ => .next []
  | n + 1, s =>
    match windowCell off with
    | none => .refused (.reservedOffset off)
    | some c =>
      andThen (readCell c s) fun v =>
      andThen (readCells (off + 1) n s) fun vs => .next (v :: vs)

/-- The bytes of `ReadReg(off, n)` (R32): an access that touches a reserved offset has no step (R362);
an unwritten buffer byte faults (R61). -/
def readWindow (off n : Nat) (s : State) : Attempt (List Byte) :=
  match firstReserved off n with
  | some bad => .refused (.reservedOffset bad)
  | none => readCells off n s

/-- What follows the acceptance of a command word, in the same step (30_encoding.md R140): its family
rule, or ILLEGAL_COMMAND (R141). -/
def beginCommand (d : Decoded) (s : State) : Attempt State :=
  match d with
  | .command i => exec i s
  | .illegal .opcode => .next (s.raise .opcode)
  | .illegal .reserved => .next (s.raise .reserved)

/-- A host write arrives while BUSY = 1: it is dropped and REJECT is set (R46). -/
def State.dropWrite (s : State) : State := { s with reject := true }

/-- `IssueCmd(w)` (R42): dropped while BUSY = 1, else accepted, decoded and begun in one step. -/
def issueCmd (w : Word64) (s : State) : Attempt State :=
  let t := s.observe (.host (.issueCmd w))
  if s.busy then .next t.dropWrite else beginCommand (decode w) (t.accept w)

/-- `WriteDbuf(i, v)` (R54): dropped while BUSY = 1. -/
def writeDbuf (i : Nat) (v : Byte) (s : State) : Attempt State :=
  let t := s.observe (.host (.writeDbuf i v))
  if dbufSize ≤ i then .refused (.noSuchDbufByte i)
  else if s.busy then .next t.dropWrite
  else .next { t with dbuf := t.dbuf.write i v }

/-- `Reset` (R340): every piece of BTF state to its reset value. The other agents go on: time, the
history, the schedule, and an outstanding bus call, whose answer will be discarded (R342). A Reset that
cuts a settle delay short is recorded as the Reset alone, with no settle-delay exit: 20_memory.md R108 does
not say whether it is one (DESIGN CHOICE, notes/assumptions/20.md). -/
def hostReset (s : State) : State :=
  State.observe (.host .reset)
    { State.reset with
      now := s.now
      abandoned := s.abandoned + (if s.pending.isSome then 1 else 0)
      history := s.history
      schedule := s.schedule }

/-- The little-endian 64-bit value of at most eight bytes (R34). -/
def wordOfBytes : List Byte → Word64
  | [] => 0#64
  | b :: bs => b.setWidth 64 ||| wordOfBytes bs <<< 8

/-- The writes that have a step (R32). -/
inductive WindowWrite where
  | issue (w : Word64)
  | data (i : Nat) (v : Byte)
deriving DecidableEq, Repr

/-- Which write a raw write access is, or why it has no step (R41, R362): once no byte touches a reserved
offset, the cell of its first byte decides (notes/assumptions/12.md). -/
def classifyWrite (off : Nat) (data : List Byte) : Attempt WindowWrite :=
  match firstReserved off data.length with
  | some bad => .refused (.reservedOffset bad)
  | none =>
    match windowCell off, data with
    | _, [] => .refused (.emptyWrite off)
    | some (.buffer .dbuf i), [v] => .next (.data i v)
    | some (.buffer .dbuf _), _ => .refused (.dbufAccessWidth off)
    | some (.cmd 0), _ =>
      if data.length = 8 then .next (.issue (wordOfBytes data)) else .refused (.partialCmdWrite off)
    | some (.cmd _), _ => .refused (.partialCmdWrite off)
    | _, _ => .refused (.readOnlyRegister off)

/-- A raw write access to the window (R41). -/
def windowWrite (off : Nat) (data : List Byte) (s : State) : Attempt State :=
  andThen (classifyWrite off data) fun w =>
  match w with
  | .issue v => issueCmd v s
  | .data i v => writeDbuf i v s

/-- One host action (R32). -/
def hostStep (a : HostAction) (s : State) : Attempt State :=
  match a with
  | .issueCmd w => issueCmd w s
  | .writeDbuf i v => writeDbuf i v s
  | .reset => .next (hostReset s)
  | .readReg off n =>
    andThen (readWindow off.toNat n s) fun bytes => .next (s.observe (.hostRead off n bytes))
  | .writeReg off data => windowWrite off.toNat data s

end Sys2Proof.Machine
end

