-- ==== Sys2Proof/Machine/Sequencer.lean ====
section
/-! DEFINITION. The transport sequencer after acceptance (spec 43_transport_read.md R220-R232,
44_transport_write.md R260-R281, 60_exceptions.md R330): its reaction to the answer of each phase's bus
request, in the step in which the answer arrives (R220), and its step out of SETTLE. The running command
is the one latched in CMD (20_memory.md R106). -/

namespace Sys2Proof.Machine

open Sys2Proof.Config

/-- W_CMD answered: a block read settles for T_READ and goes on with the pointer write (R221, R222); a
MAC_CMD settles for its class's delay and completes (R270). -/
def afterCommandWrite (a : BusAnswer) (s : State) : State :=
  match a with
  | .ioerr => s.raise (.io .wCmd)
  | .ok _ =>
    match decode s.cmd with
    | .command (.macCmd _ cls) => s.settle (classDelay cls) .complete
    | _ => s.settle tRead .pointerWrite

/-- W_PTR answered: the block read follows with no delay (R223, R224). -/
def afterPointerWrite (a : BusAnswer) (s : State) : State :=
  match a with
  | .ioerr => s.raise (.io .wPtr)
  | .ok _ => s.issue .rBlk blockRead

/-- The payload bytes of a valid frame, `frame[2 .. 2 + pl)` with `pl = L - 4` (R229). -/
def framePayload (frame : List Byte) : List Byte :=
  (frame.drop payloadIndex).take ((frameByte frame lengthIndex).toNat - serviceBytes)

/-- Payload extraction of a valid frame, and completion (R229): OUT past the payload is left as it
is. -/
def deliver (frame : List Byte) (s : State) : State :=
  State.complete
    { s with
      out := s.out.writeRange 0 (framePayload frame)
      outLen := frameByte frame lengthIndex - BitVec.ofNat 8 serviceBytes }

/-- The sub-address a frame echoes, low byte first (20_memory.md R87). The BTF compares it with nothing
(R228); a host may. -/
def echoedAddress (frame : List Byte) : Half :=
  frameByte frame addrHiIndex ++ frameByte frame addrLoIndex

/-- A 36-byte frame has arrived (R227): FRAME takes it whole, then it is validated, and delivered only
if valid (R230). The echoed sub-address is not compared (R228). -/
def receiveFrame (frame : List Byte) (s : State) : State :=
  let t : State := { s with frame := s.frame.writeRange 0 frame }
  match validate frame with
  | .valid => deliver frame t
  | .badLength => t.raise .length
  | .sumZero => t.raise .sumZero

/-- R_BLK answered (R224, R226, R227). -/
def afterBlockRead (a : BusAnswer) (s : State) : State :=
  match a with
  | .ioerr => s.raise (.io .rBlk)
  | .ok bytes => if bytes.length = frameSize then receiveFrame bytes s else s.raise .readCount

/-- W_PAY answered, for the payload write of the bytes `tx`: the trailer write follows (R260, R262). -/
def afterPayloadWrite (tx : List Byte) (a : BusAnswer) (s : State) : State :=
  match a with
  | .ioerr => s.raise (.io .wPay)
  | .ok _ => s.issue .wTrl (trailerWrite tx)

/-- W_TRL answered: 200 ms, then completion (R263). -/
def afterTrailerWrite (a : BusAnswer) (s : State) : State :=
  match a with
  | .ioerr => s.raise (.io .wTrl)
  | .ok _ => s.settle tDfWrite .complete

/-- W_KEY1 answered: the second key word, B of CMD, follows with no delay (R275). -/
def afterFirstKey (a : BusAnswer) (s : State) : State :=
  match a with
  | .ioerr => s.raise (.io .wKey1)
  | .ok _ => s.issue .wKey2 (keyWrite (fieldB s.cmd))

/-- W_KEY2 answered: 1000 ms, then completion (R275). -/
def afterSecondKey (a : BusAnswer) (s : State) : State :=
  match a with
  | .ioerr => s.raise (.io .wKey2)
  | .ok _ => s.settle tUnseal .complete

/-- The data bytes of a bus write request. -/
def BusReq.data : BusReq → List Byte
  | .write _ data => data
  | .read _ => []

/-- The sequencer's reaction to the answer of the request `r` of the phase it is in. In IDLE and SETTLE
no request is outstanding (R58). -/
def react (r : BusReq) (a : BusAnswer) (s : State) : Attempt State :=
  match s.phase with
  | .wCmd => .next (afterCommandWrite a s)
  | .wPtr => .next (afterPointerWrite a s)
  | .rBlk => .next (afterBlockRead a s)
  | .wPay => .next (afterPayloadWrite r.data a s)
  | .wTrl => .next (afterTrailerWrite a s)
  | .wKey1 => .next (afterFirstKey a s)
  | .wKey2 => .next (afterSecondKey a s)
  | .idle => .refused .answerWithoutCall
  | .settle => .refused .answerWithoutCall

/-- The collaborator answers the pending request (R33, R92). -/
def busAnswer (a : BusAnswer) (s : State) : Attempt State :=
  match s.pending with
  | none => .refused .answerWithoutCall
  | some r => react r a (State.observe (.answer a) { s with pending := none })

/-- The collaborator answers a request that a reset abandoned: the answer is discarded (R342). -/
def lateBusAnswer (a : BusAnswer) (s : State) : Attempt State :=
  match s.abandoned with
  | 0 => .refused .answerWithoutCall
  | n + 1 => .next (State.observe (.lateAnswer a) { s with abandoned := n })

/-- The delay of a settle timer has passed (R330). -/
def delayPassed (t : SettleTimer) (now : Nat) : Bool := t.t0 + t.delay ≤ now

/-- SETTLE is left: the next bus request is issued, or the command completes (R57, R330). -/
def leaveSettle (t : SettleTimer) (s : State) : State :=
  let u := s.observe (.settleExit t.delay s.now)
  match t.next with
  | .pointerWrite => u.issue .wPtr pointerWrite
  | .complete => u.complete

/-- The sequencer's own step (R330): it leaves SETTLE once the delay has passed. Anywhere else, and
before that, it waits (R33, R305; notes/assumptions/3.md). -/
def sequencerStep (s : State) : State :=
  match s.phase, s.timer with
  | .settle, some t => if delayPassed t s.now then leaveSettle t s else s
  | _, _ => s

end Sys2Proof.Machine
end

