-- ==== Sys2Proof/Machine/Agents.lean ====
section
/-! DEFINITION. One move of one agent (spec 10_state.md R30): the host, the sequencer, the bus
collaborator, time. -/

namespace Sys2Proof.Machine

/-- Time advances and changes nothing else (60_exceptions.md R331). -/
def elapse (ms : Nat) (s : State) : State := { s with now := s.now + ms }

/-- The move of the agent an event names (R30). -/
def agentStep (e : Event) (s : State) : Attempt State :=
  match e with
  | .host a => hostStep a s
  | .sequencer => .next (sequencerStep s)
  | .answer a => busAnswer a s
  | .lateAnswer a => lateBusAnswer a s
  | .elapse ms => .next (elapse ms s)

/-- The state in which the next scheduled move, if any, is a fresh `IssueCmd(w)` to an idle sequencer. -/
def State.withNextCommand (w : Word64) (s : State) : State :=
  { s with
    busy := false
    phase := .idle
    timer := none
    pending := none
    schedule := .host (.issueCmd w) :: s.schedule }

end Sys2Proof.Machine
end

