-- ==== Sys2Proof/Machine/Step.lean ====
section
/-! DEFINITION. One step of the machine: the next scheduled move of an agent (spec 10_state.md R30). -/

namespace Sys2Proof.Machine

/-- One step: the head of the schedule moves. With nothing scheduled no agent moves: the machine stays
as it is (R341, U5; notes/assumptions/3.md). -/
def step (s : State) : Host.Outcome State Fault Refusal :=
  match s.schedule with
  | [] => .next s
  | e :: rest => agentStep e { s with schedule := rest }

/-- The state whose next step runs the command of a table row's bits: an `IssueCmd` of that 64-bit word
at the head of the schedule, the sequencer idle, which is what accepting a command takes (R42;
notes/assumptions/10.md). -/
def State.withFetchWord (s : State) (nbits w : Nat) : State :=
  s.withNextCommand (BitVec.ofNat 64 (w % 2 ^ nbits))

end Sys2Proof.Machine
end

