-- ==== Sys2Proof/Machine/Assembler.lean ====
section
/-! DEFINITION. The host's side: assembly lines (spec 30_encoding.md R145) and the pseudo-instructions
of the source's derived-quantity helpers (R150-R155), as the host actions they stand for. They are no
commands of the BTF (00_scope.md R10). Lines are token lists, not text (notes/assumptions/14.md). -/

namespace Sys2Proof.Machine

/-- An operand as the assembler spells it (R145). -/
inductive AsmOperand where
  | num (n : Half)
  | le | be
  | dbuf | out
  | generic | reset | fet | pfreset
deriving DecidableEq, Repr

/-- A number (R145). -/
def asmNumber : AsmOperand → Option Half
  | .num n => some n
  | _ => none

/-- `le` or `be`, COMPOSE_WORD's B (R145). -/
def asmOrder : AsmOperand → Option Half
  | .le => some 1#16
  | .be => some 0#16
  | _ => none

/-- `dbuf` or `out`, BSEL (R145). -/
def asmBuffer : AsmOperand → Option Half
  | .dbuf => some 0#16
  | .out => some 1#16
  | _ => none

/-- A delay class word of MAC_CMD (R145, R271). -/
def asmClass : AsmOperand → Option Half
  | .generic => some 0#16
  | .reset => some 1#16
  | .fet => some 2#16
  | .pfreset => some 3#16
  | _ => none

/-- The operand at a position, 0 where it is omitted (R145). -/
def asmOperand (read : AsmOperand → Option Half) (args : List AsmOperand) (k : Nat) : Option Half :=
  match args[k]? with
  | none => some 0#16
  | some x => read x

/-- How many operands a mnemonic takes (R145). -/
def Op.asmArity : Op → Nat
  | .macRead => 1
  | .dfRead => 1
  | .dfWrite => 2
  | .macCmd => 2
  | .unsealKey => 2
  | .checksum => 1
  | .validate => 0
  | .addrCheck => 3
  | .sizeCheck => 1
  | .composeWord => 3
  | .composeValue => 3
  | .composeDword => 1

/-- The command a line `MNEMONIC operand, ...` spells, if it spells one (R145). -/
def assemble (op : Op) (args : List AsmOperand) : Option Instr :=
  let num := asmOperand asmNumber args
  if Op.asmArity op < args.length then none
  else
    match op with
    | .macRead => (num 0).map .macRead
    | .dfRead => (num 0).map .dfRead
    | .dfWrite => (num 0).bind fun a => (num 1).map (.dfWrite a)
    | .macCmd => (num 0).bind fun a => (asmOperand asmClass args 1).map (.macCmd a)
    | .unsealKey => (num 0).bind fun a => (num 1).map (.unsealKey a)
    | .checksum => (num 0).map .checksum
    | .validate => some .validate
    | .addrCheck => (num 0).bind fun a => (num 1).bind fun b => (num 2).map (.addrCheck a b)
    | .sizeCheck => (num 0).map .sizeCheck
    | .composeWord =>
      (num 0).bind fun a => (asmOperand asmOrder args 1).bind fun b =>
      (asmOperand asmBuffer args 2).map (.composeWord a b)
    | .composeValue =>
      (num 0).bind fun a => (num 1).bind fun b => (asmOperand asmBuffer args 2).map (.composeValue a b)
    | .composeDword => (asmOperand asmBuffer args 0).map .composeDword

/-- A line of a host program (R145). -/
inductive AsmLine where
  /-- A command. -/
  | command (i : Instr)
  /-- `dbuf[i..] = v0 v1 ...`; `dbuf[i] = v` is the one-byte case. -/
  | fill (i : Nat) (bytes : List Byte)
  /-- `wait done`: the host polls STATUS until DONE = 1. -/
  | waitDone
  /-- `reset`. -/
  | reset
deriving DecidableEq, Repr

/-- Consecutive `WriteDbuf`s (R145). -/
def fillActions (i : Nat) : List Byte → List HostAction
  | [] => []
  | b :: bs => .writeDbuf i b :: fillActions (i + 1) bs

/-- The host actions of a line; of `wait done`, one poll of STATUS (R145). -/
def AsmLine.actions : AsmLine → List HostAction
  | .command i => [.issueCmd (encode i)]
  | .fill i bytes => fillActions i bytes
  | .waitDone => [.readReg 0x08#8 4]
  | .reset => [.reset]

/-- The poll that ends `wait done`. -/
def pollDone (s : State) : Bool := s.done

/-- A command completed with CODE = OK, which every command of a helper must (30_encoding.md section
6). -/
def succeeded (s : State) : Bool := s.done && s.code == .ok

/-- A helper: lines that end with the completion of a command, then what the host does next, at the end the
value it takes from the state (30_encoding.md section 6). -/
inductive Helper (α : Type) where
  | lines (now : List AsmLine) (rest : Helper α)
  | value (take : State → Option α)

/-- The lines a helper expands to. -/
def Helper.expansion {α : Type} : Helper α → List AsmLine
  | .lines now rest => now ++ rest.expansion
  | .value _ => []

/-- What the host does next in a helper. -/
inductive HelperMove (α : Type) where
  /-- The helper goes on with these lines. -/
  | issue (now : List AsmLine)
  /-- The helper succeeds. -/
  | value (a : α)
  /-- The helper fails with no value. -/
  | failed
deriving DecidableEq, Repr

/-- The host's move in a helper, given the state it stands in and the states in which the commands of its
lines have completed so far, in turn: it goes on only past a command that completed with CODE = OK, and
stops at the first that did not (30_encoding.md section 6). -/
def Helper.move {α : Type} : Helper α → State → List State → HelperMove α
  | .lines now _, _, [] => .issue now
  | .lines _ rest, _, s :: more => if succeeded s then rest.move s more else .failed
  | .value take, s, _ =>
    match take s with
    | some a => .value a
    | none => .failed

/-- `DF_READ_BYTE addr` (R150): OUT[0], unless OUT_LEN = 0. -/
def dfReadByte (addr : Half) : Helper Byte :=
  .lines [.command (.dfRead addr), .waitDone] <| .value fun s =>
    if 1 ≤ s.outLen.toNat then Memory.read s.out 0 else none

/-- `DF_READ_WORD addr` (R151): RESULT[15:0], unless OUT_LEN < 2. That OUT_LEN is looked at once the whole
expansion has run is a DESIGN CHOICE (notes/assumptions/14.md). -/
def dfReadWord (addr : Half) : Helper Half :=
  .lines [.command (.dfRead addr), .waitDone] <|
  .lines [.command (.composeWord 0#16 1#16 1#16)] <| .value fun s =>
    if 2 ≤ s.outLen.toNat then some (s.result.extractLsb' 0 16) else none

/-- `DF_READ_STRING addr` (R152): the characters OUT[1..1+n) with n = OUT[0], unless OUT_LEN = 0 or
1 + n > OUT_LEN. A character is the byte as it stands, one of 0x80 or more too: what such a byte is when
read as ASCII the rule does not say (DESIGN CHOICE, notes/assumptions/21.md). -/
def dfReadString (addr : Half) : Helper (List Byte) :=
  .lines [.command (.dfRead addr), .waitDone] <| .value fun s =>
    if 1 ≤ s.outLen.toNat then
      (Memory.read s.out 0).bind fun n =>
      if 1 + n.toNat ≤ s.outLen.toNat then
        (List.range n.toNat).mapM fun k => Memory.read s.out (1 + k)
      else none
    else none

/-- `DF_WRITE_BYTE addr, v` (R153). -/
def dfWriteByte (addr : Half) (v : Byte) : Helper Unit :=
  .lines [.fill 0 [v], .command (.dfWrite addr 1#16), .waitDone] <| .value fun _ => some ()

/-- `DF_WRITE_WORD addr, v` (R154). -/
def dfWriteWord (addr v : Half) : Helper Unit :=
  .lines [.fill 0 (wireHalf v), .command (.dfWrite addr 2#16), .waitDone] <| .value fun _ => some ()

/-- `DF_WRITE_STRING addr, "s"` (R155): a string of 32 or more bytes is refused by the assembler.
A byte of 0x80 or more, no ASCII character, is expanded as any other: the rule speaks of ASCII bytes only
(DESIGN CHOICE, notes/assumptions/21.md). -/
def dfWriteString (addr : Half) (chars : List Byte) : Option (Helper Unit) :=
  if chars.length ≤ 31 then
    some <|
      .lines
        [.fill 0 (BitVec.ofNat 8 chars.length :: chars),
         .command (.dfWrite addr (BitVec.ofNat 16 (chars.length + 1))), .waitDone] <|
      .value fun _ => some ()
  else none

end Sys2Proof.Machine
end

