-- ==== Sys2Proof/Safety.lean ====
section
/-! DEFINITION. The terms claims are stated in: what a buffer holds, plain arithmetic readings of bytes,
and the invariant that rules out the states no run reaches (spec 10_state.md R42-R61, 20_memory.md
R106). -/

namespace Sys2Proof.Machine

open Sys2Proof.Config

/-- A buffer memory holds these bytes from an index on. -/
def Holds (m : Memory) (i : Nat) (bytes : List Byte) : Prop :=
  ∀ k, (h : k < bytes.length) → Memory.read m (i + k) = some bytes[k]

/-- Some of `n` bytes from an index on has not been written since reset (R61). -/
def SomeUnwritten (m : Memory) (i n : Nat) : Prop := ∃ k, k < n ∧ Memory.read m (i + k) = none

/-- Byte `k` of a number, the low byte first (R34). -/
def byteOf (n k : Nat) : Byte := BitVec.ofNat 8 (n / 256 ^ k)

/-- The bytes of a command word as a host writes them to CMD, low byte first (R34). -/
def cmdBytes (w : Word64) : List Byte := (List.range 8).map (byteOf w.toNat)

/-- The next move issues the word `w`: an `IssueCmd`, or the 8-byte write to CMD that it is (R32, R42). -/
def IssueNext (s : State) (w : Word64) (rest : List Event) : Prop :=
  s.schedule = .host (.issueCmd w) :: rest ∨ s.schedule = .host (.writeReg 0x00#8 (cmdBytes w)) :: rest

/-- The next move writes `v` to byte `i` of DBUF: a `WriteDbuf`, or the byte write to the window that it is
(R32, R54). -/
def WriteNext (s : State) (i : Nat) (v : Byte) (rest : List Event) : Prop :=
  s.schedule = .host (.writeDbuf i v) :: rest ∨
  ∃ off : Byte, off.toNat = 0x40 + i ∧ s.schedule = .host (.writeReg off [v]) :: rest

/-- The offset holds a register (R41). -/
def Mapped (off : Nat) : Prop := off ≤ 0x10 ∨ (0x20 ≤ off ∧ off < 0x64) ∨ (0x80 ≤ off ∧ off < 0xA4)

/-- What the host window holds at an offset, read off the table of R41; no byte at a reserved offset and at
an unwritten buffer byte (R61). -/
def windowByte (s : State) (off : Nat) : Option Byte :=
  if off < 0x08 then some (byteOf s.cmd.toNat off)
  else if off < 0x0C then some (byteOf (statusWord s).toNat (off - 0x08))
  else if off < 0x10 then some (byteOf s.result.toNat (off - 0x0C))
  else if off = 0x10 then some s.outLen
  else if 0x20 ≤ off ∧ off < 0x40 then Memory.read s.out (off - 0x20)
  else if 0x40 ≤ off ∧ off < 0x64 then Memory.read s.dbuf (off - 0x40)
  else if 0x80 ≤ off ∧ off < 0xA4 then Memory.read s.frame (off - 0x80)
  else none

/-- The little-endian number a byte sequence spells (R162). -/
def leNat : List Byte → Nat
  | [] => 0
  | b :: bs => b.toNat + 256 * leNat bs

/-- The rows of R48: what a completed command may report. -/
def reportable : List Cause :=
  [.success, .rangeAddr, .rangeSize, .sumZero, .length,
   .io .wCmd, .io .wPtr, .io .rBlk, .readCount, .io .wPay, .io .wTrl, .io .wKey1, .io .wKey2,
   .negIndex, .beyond, .order, .span, .opcode, .reserved]

/-- The sub-address of a block read that its gate lets through (R235, R236). -/
def blockReadOf : Instr → Option Half
  | .macRead a => some a
  | .dfRead a => if dataFlashGate a then some a else none
  | _ => none

/-- The sub-address whose command write a command begins with (R221, R270). -/
def commandWriteOf : Instr → Option Half
  | .macCmd a _ => some a
  | i => blockReadOf i

/-- The settle delay of a command and what follows it (R280). -/
def settleOf : Instr → Option (Nat × AfterSettle)
  | .macCmd _ cls => some (classDelay cls, .complete)
  | .dfWrite _ _ => some (tDfWrite, .complete)
  | .unsealKey _ _ => some (tUnseal, .complete)
  | i => (blockReadOf i).map fun _ => (tRead, .pointerWrite)

/-- The address and the payload of a DF_WRITE its gates let through, the payload as it stands in DBUF
(R260, 20_memory.md R106). -/
def DfWriteOf (s : State) (a : Half) (payload : List Byte) : Prop :=
  ∃ len, decode s.cmd = .command (.dfWrite a len) ∧ dataFlashGate a = true ∧
    isPayloadSizeValid len = true ∧ payload.length = len.toNat ∧ Holds s.dbuf 0 payload

/-- What the phase says of the running command, the pending request and the timer (R56, R57, R58). -/
def PhaseFits (s : State) : Prop :=
  match s.phase with
  | .idle => s.pending = none ∧ s.timer = none
  | .wCmd => s.timer = none ∧ ∃ i a, decode s.cmd = .command i ∧ commandWriteOf i = some a ∧
      s.pending = some (commandWrite a)
  | .settle => s.pending = none ∧ ∃ i t, decode s.cmd = .command i ∧ s.timer = some t ∧
      settleOf i = some (t.delay, t.next) ∧ t.t0 ≤ s.now
  | .wPtr => s.timer = none ∧ s.pending = some pointerWrite ∧
      ∃ i a, decode s.cmd = .command i ∧ blockReadOf i = some a
  | .rBlk => s.timer = none ∧ s.pending = some blockRead ∧
      ∃ i a, decode s.cmd = .command i ∧ blockReadOf i = some a
  | .wPay => s.timer = none ∧ ∃ a payload, DfWriteOf s a payload ∧ s.pending = some (payloadWrite a payload)
  | .wTrl => s.timer = none ∧ ∃ a payload, DfWriteOf s a payload ∧
      s.pending = some (trailerWrite (payloadData a payload))
  | .wKey1 => s.timer = none ∧ ∃ k1 k2, decode s.cmd = .command (.unsealKey k1 k2) ∧
      s.pending = some (keyWrite k1)
  | .wKey2 => s.timer = none ∧ ∃ k1 k2, decode s.cmd = .command (.unsealKey k1 k2) ∧
      s.pending = some (keyWrite k2)

/-- The sequencer's part of the invariant. -/
structure SequencerInv (s : State) : Prop where
  /-- PHASE is IDLE exactly when BUSY = 0 (R56). -/
  idle_iff : s.phase = .idle ↔ s.busy = false
  /-- The phase fits the command, the request and the timer. -/
  fits : PhaseFits s

/-- The status part of the invariant. -/
structure StatusInv (s : State) : Prop where
  /-- While a command runs, DONE, CODE and DETAIL are 0 (R42). -/
  running : s.busy = true → s.done = false ∧ s.code = .ok ∧ s.detail = 0#8
  /-- A completed command reports a row of R48. -/
  reported : s.done = true → ∃ c ∈ reportable, s.code = c.code ∧ s.detail = c.detail
  /-- DONE = 0 with BUSY = 0 occurs only after reset, before any command (R45): every register a command
  writes has its reset value, and no write has been dropped. -/
  fresh : s.busy = false → s.done = false →
    s.cmd = 0#64 ∧ s.code = .ok ∧ s.detail = 0#8 ∧ s.result = 0#32 ∧ s.outLen = 0#8 ∧
      s.out = [] ∧ s.frame = [] ∧ s.reject = false

/-- The buffers' part of the invariant. -/
structure BufferInv (s : State) : Prop where
  /-- Each buffer is in canonical form. -/
  canonical : ∀ b, Memory.wf (s.memory b)
  /-- Each buffer lists only bytes it has (20_memory.md R80). -/
  inside : ∀ b, ∀ c ∈ s.memory b, c.1 < b.size
  /-- OUT_LEN is 0 to 32 (R52). -/
  outLen_le : s.outLen.toNat ≤ 32
  /-- The payload bytes of the last successful block read have been written (R53). -/
  payload : ∀ k, k < s.outLen.toNat → (Memory.read s.out k).isSome
  /-- No partial frame is ever visible (20_memory.md R92). -/
  whole : s.frame = [] ∨ ∀ k, k < 36 → (Memory.read s.frame k).isSome

/-- The invariant of the machine. -/
structure Inv (s : State) : Prop where
  sequencer : SequencerInv s
  status : StatusInv s
  buffers : BufferInv s

/-- No host write has been dropped since reset: the run has kept the host's duty (R46, R351). -/
def dutiful (s : State) : Bool := !s.reject

end Sys2Proof.Machine
end

