-- ==== Sys2Proof/Certificates/Slice0/Obligations.lean ====
section
/-! DEFINITION. The statements about the BTF: each says which rule of the spec it formalises, or that it
is derived from the sections it names. A step takes the head of the model's schedule (the agents' moves, DESIGN
CHOICE, notes/assumptions/2.md): a statement about a step says so by consuming its move, and the move and
what follows it is recorded in the observable history of 20_memory.md R108. -/

open Sys2Proof Sys2Proof.Machine

/-! ## Encodings -/

/-- Decode and encode agree (R130-R133): every well-formed command, at every value of its operands,
decodes from its own command word. -/
def Obligations.DecodeEncodeAgree : Prop :=
  ∀ i : Instr, i.wellFormed = true → decode (encode i) = .command i

/-- The legal words are exactly the encodings of well-formed commands (R133): no two words decode to one
command and no reserved bit is dropped. -/
def Obligations.LegalWordsAreEncodings : Prop :=
  ∀ (w : Word64) (i : Instr), decode w = .command i ↔ (i.wellFormed = true ∧ encode i = w)

/-- Why a word is illegal (R133, R140, R303): OPCODE when its low byte is no OP of the map, RESERVED when
it is and the word is still no encoding. -/
def Obligations.IllegalWordReasons : Prop :=
  ∀ w : Word64,
    (decode w = .illegal .opcode ↔
      w.toNat % 256 ∉ [0x01, 0x02, 0x03, 0x04, 0x05, 0x10, 0x11, 0x18, 0x19, 0x20, 0x21, 0x22]) ∧
    (decode w = .illegal .reserved ↔
      w.toNat % 256 ∈ [0x01, 0x02, 0x03, 0x04, 0x05, 0x10, 0x11, 0x18, 0x19, 0x20, 0x21, 0x22] ∧
      ∀ i : Instr, i.wellFormed = true → encode i ≠ w)

/-- Words written out from the encodings of R132 decode to the commands they spell. -/
def Obligations.SampleWordsDecode : Prop :=
  decode 0x0000000000010001#64 = .command (.macRead 0x0001#16) ∧
  decode 0x00000000462A0002#64 = .command (.dfRead 0x462A#16) ∧
  decode 0x00000002462A0003#64 = .command (.dfWrite 0x462A#16 2#16) ∧
  decode 0x0000000300290004#64 = .command (.macCmd 0x0029#16 3#16) ∧
  decode 0x0000567812340005#64 = .command (.unsealKey 0x1234#16 0x5678#16) ∧
  decode 0x0000000000040010#64 = .command (.checksum 4#16) ∧
  decode 0x5FFF400060000018#64 = .command (.addrCheck 0x6000#16 0x4000#16 0x5FFF#16) ∧
  decode 0x0001000100000020#64 = .command (.composeWord 0#16 1#16 1#16)

/-! ## Reset, acceptance and the host port -/

/-- The state after reset (R60, R341): every control register 0, PHASE IDLE, no timer, no request, and no
buffer byte has a value. -/
def Obligations.ResetValues : Prop :=
  State.reset.cmd = 0#64 ∧ statusWord State.reset = 0#32 ∧ State.reset.result = 0#32 ∧
  State.reset.outLen = 0#8 ∧ State.reset.phase = .idle ∧ State.reset.timer = none ∧
  State.reset.pending = none ∧ ∀ b i, readBuf b i State.reset = .fault (.unwritten b i)

/-- The host's Reset (R340): in one step every piece of BTF state has its reset value, from every state;
and REJECT is cleared only there. -/
def Obligations.HostResetRestoresAll : Prop :=
  (∀ (s : State) (rest : List Event), s.schedule = .host .reset :: rest →
    ∃ t, step s = .next t ∧ t.cmd = 0#64 ∧ statusWord t = 0#32 ∧ t.result = 0#32 ∧ t.outLen = 0#8 ∧
      t.phase = .idle ∧ t.timer = none ∧ t.pending = none ∧
      (∀ b i, Memory.read (t.memory b) i = none)) ∧
  (∀ s t : State, step s = .next t → s.reject = true → t.reject = false →
    ∃ rest, s.schedule = .host .reset :: rest)

/-- `IssueCmd` (R42), as that action or as the 8-byte write to CMD: accepted when BUSY = 0, with CMD latched, BUSY set and DONE, CODE, DETAIL cleared,
and the word decoded in the same step; dropped when BUSY = 1, setting REJECT alone; CMD reads back,
little-endian, as the last accepted word, since only an acceptance or a reset writes it, and is 0 after
reset. -/
def Obligations.IssueCmdAcceptsOrDrops : Prop :=
  (∀ (s : State) (w : Word64) (rest : List Event), IssueNext s w rest →
    (s.busy = false → step s = beginCommand (decode w)
      { s with
        schedule := rest, history := s.history ++ [.host (.issueCmd w)]
        cmd := w, busy := true, done := false, code := .ok, detail := 0#8 }) ∧
    (s.busy = true → step s = .next
      { s with
        schedule := rest, history := s.history ++ [.host (.issueCmd w)], reject := true })) ∧
  (∀ s : State, readWindow 0x00 8 s = .next (cmdBytes s.cmd)) ∧
  (∀ s t : State, step s = .next t → t.cmd ≠ s.cmd →
    (∃ rest, s.schedule = .host .reset :: rest) ∨
    (s.busy = false ∧ ∃ rest, IssueNext s t.cmd rest)) ∧
  State.reset.cmd = 0#64

/-- A step runs the decoded command: when the next move issues a word that decodes to `i` and BUSY = 0, the step is `exec i` of the state with the move consumed and recorded and the command
accepted (R42, R140). -/
def Obligations.StepRunsDecodedCommand : Prop :=
  ∀ (s : State) (w : Word64) (i : Instr) (rest : List Event),
    IssueNext s w rest → s.busy = false → decode w = .command i →
    step s = exec i
      { s with
        schedule := rest, history := s.history ++ [.host (.issueCmd w)]
        cmd := w, busy := true, done := false, code := .ok, detail := 0#8 }

/-- An illegal word ends at once (R141): no bus request, no delay, no register written but CMD and
STATUS. -/
def Obligations.IllegalCommandEndsAtOnce : Prop :=
  (∀ (s : State) (w : Word64) (why : Illegal) (rest : List Event),
    IssueNext s w rest → s.busy = false → decode w = .illegal why →
    step s = .next
      { s with
        schedule := rest, history := s.history ++ [.host (.issueCmd w)]
        cmd := w, busy := false, done := true, phase := .idle, timer := none, pending := none
        code := .illegalCommand
        detail := match why with | .opcode => 0x01#8 | .reserved => 0x02#8 }) ∧
  decode 0x0000000000000000#64 = .illegal .opcode ∧ decode 0x0000000000000101#64 = .illegal .reserved

/-- `WriteDbuf(i, v)` (R54, R46), as that action or as a byte write to the window: with BUSY = 0 it sets that byte and no other; with BUSY = 1 it is
dropped and sets REJECT. -/
def Obligations.WriteDbufSetsOneByte : Prop :=
  ∀ (s : State) (i : Nat) (v : Byte) (rest : List Event),
    WriteNext s i v rest → i < 36 →
    (s.busy = false → ∃ t, step s = .next t ∧
      (∀ k, Memory.read t.dbuf k = if k = i then some v else Memory.read s.dbuf k) ∧
      t = { s with
        schedule := rest, history := s.history ++ [.host (.writeDbuf i v)], dbuf := t.dbuf }) ∧
    (s.busy = true → step s = .next
      { s with
        schedule := rest, history := s.history ++ [.host (.writeDbuf i v)], reject := true })

/-- A host read changes no state (R32): whatever it answers, only the history and the schedule move. -/
def Obligations.HostReadChangesNothing : Prop :=
  ∀ (s t : State) (off : Byte) (n : Nat) (rest : List Event),
    s.schedule = .host (.readReg off n) :: rest → step s = .next t →
    ∃ bytes : List Byte, bytes.length = n ∧
      t = { s with schedule := rest, history := s.history ++ [.hostRead off n bytes] }

/-- A host read of STATUS answers its four bytes, little-endian (R34, R43). -/
def Obligations.StatusReadsLittleEndian : Prop :=
  ∀ (s : State) (rest : List Event), s.schedule = .host (.readReg 0x08#8 4) :: rest →
    step s = .next
      { s with
        schedule := rest
        history := s.history ++ [.hostRead 0x08#8 4
          ((List.range 4).map fun k => BitVec.ofNat 8 ((statusWord s).toNat / 256 ^ k))] }

/-- A host read answers what the window holds (R34, R41): of mapped offsets whose buffer bytes have been
written, it goes on, busy or idle, with CMD, STATUS and RESULT low byte first, OUT_LEN, and the bytes of
OUT, DBUF and FRAME, each at its offset; nothing else changes. -/
def Obligations.HostReadsAnswerTheWindow : Prop :=
  ∀ (s : State) (off : Byte) (bytes : List Byte) (rest : List Event),
    s.schedule = .host (.readReg off bytes.length) :: rest →
    (∀ k, (h : k < bytes.length) → windowByte s (off.toNat + k) = some bytes[k]) →
    step s = .next
      { s with schedule := rest, history := s.history ++ [.hostRead off bytes.length bytes] }

/-- The fields of the STATUS word (R43), its reserved bits among them, and the numbers of the nine phases
(R49). -/
def Obligations.StatusWordLayout : Prop :=
  ∀ s : State,
    (statusWord s).getLsbD 0 = s.busy ∧ (statusWord s).getLsbD 1 = s.done ∧
    (statusWord s).getLsbD 2 = s.reject ∧ (statusWord s).getLsbD 3 = false ∧
    (statusWord s).extractLsb' 4 4 = s.code.bits ∧ (statusWord s).extractLsb' 8 8 = s.detail ∧
    (statusWord s).extractLsb' 16 4 = s.phase.bits ∧ (statusWord s).extractLsb' 20 12 = 0#12 ∧
    (s.phase, ((statusWord s).extractLsb' 16 4).toNat) ∈
      [(Phase.idle, 0), (Phase.wCmd, 1), (Phase.settle, 2), (Phase.wPtr, 3), (Phase.rBlk, 4),
       (Phase.wPay, 5), (Phase.wTrl, 6), (Phase.wKey1, 7), (Phase.wKey2, 8)]

/-- What each completion cause records (R47, R48): the CODE and DETAIL numbers of its row. -/
def Obligations.CauseNumbers : Prop :=
  reportable.map (fun c => (c, c.code.bits, c.detail)) =
    [(.success, 0#4, 0x00#8), (.rangeAddr, 1#4, 0x01#8), (.rangeSize, 1#4, 0x02#8),
     (.sumZero, 2#4, 0x01#8), (.length, 2#4, 0x02#8),
     (.io .wCmd, 3#4, 0x01#8), (.io .wPtr, 3#4, 0x03#8), (.io .rBlk, 3#4, 0x04#8),
     (.readCount, 3#4, 0x14#8), (.io .wPay, 3#4, 0x05#8), (.io .wTrl, 3#4, 0x06#8),
     (.io .wKey1, 3#4, 0x07#8), (.io .wKey2, 3#4, 0x08#8),
     (.negIndex, 4#4, 0x01#8), (.beyond, 4#4, 0x02#8), (.order, 4#4, 0x03#8), (.span, 4#4, 0x04#8),
     (.opcode, 5#4, 0x01#8), (.reserved, 5#4, 0x02#8)]

/-- The accesses that have no step (R362, R41): a read or write that touches a reserved offset, a write
that touches a read-only register, and a write that touches CMD and is not one 8-byte access at 0x00. -/
def Obligations.RefusedHostAccesses : Prop :=
  ∀ (s : State) (off : Byte) (rest : List Event),
    (∀ n k : Nat, k < n →
      ((0x11 ≤ off.toNat + k ∧ off.toNat + k < 0x20) ∨ (0x64 ≤ off.toNat + k ∧ off.toNat + k < 0x80) ∨
        0xA4 ≤ off.toNat + k) →
      s.schedule = .host (.readReg off n) :: rest → ∃ r, step s = .refused r) ∧
    (∀ (data : List Byte) (k : Nat), k < data.length →
      ((0x11 ≤ off.toNat + k ∧ off.toNat + k < 0x20) ∨ (0x64 ≤ off.toNat + k ∧ off.toNat + k < 0x80) ∨
        0xA4 ≤ off.toNat + k ∨
        (0x08 ≤ off.toNat + k ∧ off.toNat + k ≤ 0x10) ∨ (0x20 ≤ off.toNat + k ∧ off.toNat + k < 0x40) ∨
        (0x80 ≤ off.toNat + k ∧ off.toNat + k < 0xA4) ∨
        (off.toNat + k < 0x08 ∧ ¬(off.toNat = 0 ∧ data.length = 8))) →
      s.schedule = .host (.writeReg off data) :: rest → ∃ r, step s = .refused r)

/-- An unwritten buffer byte yields no value (R61): a host read that touches one, inside one buffer or across
registers, and a command that reads
one as an operand or as payload, fault, naming an unwritten byte. -/
def Obligations.UnwrittenBytesFault : Prop :=
  ∀ s : State,
    let faults (o : Attempt State) (b : Buf) : Prop :=
      ∃ k, Memory.read (s.memory b) k = none ∧ o = .fault (.unwritten b k)
    let source (bsel : Half) : Buf := if bsel.getLsbD 0 then .out else .dbuf
    let size (bsel : Half) : Nat := if bsel.getLsbD 0 then 32 else 36
    (∀ (b : Buf) (base len i n : Nat) (rest : List Event),
      (b, base, len) ∈ [(Buf.out, 0x20, 32), (Buf.dbuf, 0x40, 36), (Buf.frame, 0x80, 36)] →
      i + n ≤ len → SomeUnwritten (s.memory b) i n →
      s.schedule = .host (.readReg (BitVec.ofNat 8 (base + i)) n) :: rest → faults (step s) b) ∧
    (∀ (off : Byte) (n k : Nat) (rest : List Event),
      (∀ j, j < n → Mapped (off.toNat + j)) → k < n → windowByte s (off.toNat + k) = none →
      s.schedule = .host (.readReg off n) :: rest →
      ∃ b base i, (b, base) ∈ [(Buf.out, 0x20), (Buf.dbuf, 0x40), (Buf.frame, 0x80)] ∧
        off.toNat ≤ base + i ∧ base + i < off.toNat + n ∧
        Memory.read (s.memory b) i = none ∧ step s = .fault (.unwritten b i)) ∧
    (∀ n : Half, n.toNat ≤ 36 → SomeUnwritten s.dbuf 0 n.toNat → faults (exec (.checksum n) s) .dbuf) ∧
    (Memory.read s.dbuf 35 = none → faults (exec .validate s) .dbuf) ∧
    (∀ l : Byte, Memory.read s.dbuf 35 = some l → 4 ≤ l.toNat → l.toNat ≤ 36 →
      Memory.read s.dbuf 34 = none ∨ SomeUnwritten s.dbuf 0 (l.toNat - 2) →
      faults (exec .validate s) .dbuf) ∧
    (∀ a n : Half, 0x4000 ≤ a.toNat → a.toNat ≤ 0x5FFF → 1 ≤ n.toNat → n.toNat ≤ 32 →
      SomeUnwritten s.dbuf 0 n.toNat → faults (exec (.dfWrite a n) s) .dbuf) ∧
    (∀ bsel : Half, SomeUnwritten (s.memory (source bsel)) 0 4 →
      faults (exec (.composeDword bsel) s) (source bsel)) ∧
    (∀ f l bsel : Half, f.toNat < l.toNat → l.toNat ≤ f.toNat + 3 → l.toNat < size bsel →
      SomeUnwritten (s.memory (source bsel)) f.toNat (l.toNat - f.toNat + 1) →
      faults (exec (.composeValue f l bsel) s) (source bsel)) ∧
    (∀ (i le bsel : Half) (j : Nat),
      (le.getLsbD 0 = true ∧ j = i.toNat + 1) ∨ (le.getLsbD 0 = false ∧ i.toNat = j + 1) →
      i.toNat < size bsel → j < size bsel →
      Memory.read (s.memory (source bsel)) i.toNat = none ∨ Memory.read (s.memory (source bsel)) j = none →
      faults (exec (.composeWord i le bsel) s) (source bsel))

/-! ## The gate unit -/

/-- ADDR_CHECK (R202): RESULT is 1 when min ≤ addr ≤ max and 0 otherwise, the command completes with OK,
and nothing else changes; its word has OP 0x18 and all three operand fields. -/
def Obligations.AddrCheckResult : Prop :=
  ∀ (addr lo hi : Half) (s : State),
    encode (.addrCheck addr lo hi) =
      BitVec.ofNat 64 (0x18 + 2 ^ 16 * addr.toNat + 2 ^ 32 * lo.toNat + 2 ^ 48 * hi.toNat) ∧
    Instr.wellFormed (.addrCheck addr lo hi) = true ∧
    exec (.addrCheck addr lo hi) s = .next
    { s with
      result := if lo.toNat ≤ addr.toNat ∧ addr.toNat ≤ hi.toNat then 1#32 else 0#32
      code := .ok, detail := 0#8, done := true, busy := false
      phase := .idle, timer := none, pending := none }

/-- SIZE_CHECK (R203): RESULT is 1 for 1 to 32 and 0 otherwise, the command completes with OK, and
nothing else changes; its word has OP 0x19 and field A. -/
def Obligations.SizeCheckResult : Prop :=
  ∀ (len : Half) (s : State),
    encode (.sizeCheck len) = BitVec.ofNat 64 (0x19 + 2 ^ 16 * len.toNat) ∧
    Instr.wellFormed (.sizeCheck len) = true ∧
    exec (.sizeCheck len) s = .next
    { s with
      result := if 1 ≤ len.toNat ∧ len.toNat ≤ 32 then 1#32 else 0#32
      code := .ok, detail := 0#8, done := true, busy := false
      phase := .idle, timer := none, pending := none }

/-! ## The validator unit -/

/-- The checksum function (R180): the complement of the truncated sum, 0xFF for no bytes, and sum and
checksum together make 0xFF. -/
def Obligations.ChecksumComplementsSum : Prop :=
  (∀ (data : List Byte) (len : Nat),
    (checksum data len).toNat = 255 - ((data.take len).map BitVec.toNat).sum % 256) ∧
  (∀ data : List Byte, checksum data 0 = 0xFF#8) ∧
  (∀ (data : List Byte) (len : Nat),
    (((data.take len).map BitVec.toNat).sum + (checksum data len).toNat) % 256 = 255)

/-- The validate function (R182): the length byte first, then the sum of the checksum byte and the
covered bytes; any non-zero sum is valid. Its two details are LENGTH 0x02 and SUM_ZERO 0x01. -/
def Obligations.ValidateVerdict : Prop :=
  ∀ frame : List Byte, frame.length = 36 →
    let len := (frame.getD 35 0#8).toNat
    let sum := (frame.getD 34 0#8).toNat + ((frame.take (len - 2)).map BitVec.toNat).sum
    (validate frame = .badLength ↔ ¬(4 ≤ len ∧ len ≤ 36)) ∧
    (validate frame = .sumZero ↔ (4 ≤ len ∧ len ≤ 36) ∧ sum % 256 = 0) ∧
    (validate frame = .valid ↔ (4 ≤ len ∧ len ≤ 36) ∧ sum % 256 ≠ 0) ∧
    Cause.length.detail = 0x02#8 ∧ Cause.sumZero.detail = 0x01#8

/-- The any-non-zero test (R183): for given other bytes exactly one checksum byte is rejected, and the
correct complement is accepted, its sum 0xFF. -/
def Obligations.OneChecksumByteRejected : Prop :=
  ∀ frame : List Byte, frame.length = 36 →
    4 ≤ (frame.getD 35 0#8).toNat → (frame.getD 35 0#8).toNat ≤ 36 →
    (∃! c : Byte, validate (frame.set 34 c) = .sumZero) ∧
    (∀ c : Byte, validate (frame.set 34 c) ≠ .badLength) ∧
    validate (frame.set 34 (checksum frame ((frame.getD 35 0#8).toNat - 2))) = .valid ∧
    validitySum (checksum frame ((frame.getD 35 0#8).toNat - 2))
      (frame.take ((frame.getD 35 0#8).toNat - 2)) = 0xFF#8

/-- A write's trailer means what a frame's last two bytes mean (R262): the frame of the same address and
payload, with any padding and the trailer's bytes, is valid with sum 0xFF. -/
def Obligations.WriteTrailerMakesValidFrame : Prop :=
  ∀ (a : Half) (payload padding : List Byte), payload.length + padding.length = 32 →
    ∃ cs len : Byte, trailerWrite (payloadData a payload) = .write 0x60#8 [cs, len] ∧
      len.toNat = payload.length + 4 ∧
      validate (payloadData a payload ++ padding ++ [cs, len]) = .valid ∧
      validitySum cs (payloadData a payload) = 0xFF#8

/-- CHECKSUM (R185): past 36 it ends with CODEC_ERROR(BEYOND) and RESULT unchanged; else RESULT is the
zero-extended checksum of the first n bytes of DBUF. Nothing else changes. Its word has OP 0x10 and
field A. -/
def Obligations.ChecksumCommandResult : Prop :=
  ∀ (n : Half) (s : State),
    encode (.checksum n) = BitVec.ofNat 64 (0x10 + 2 ^ 16 * n.toNat) ∧
    Instr.wellFormed (.checksum n) = true ∧
    (36 < n.toNat → exec (.checksum n) s = .next
      { s with
        code := .codecError, detail := 0x02#8, done := true, busy := false
        phase := .idle, timer := none, pending := none }) ∧
    (∀ data : List Byte, n.toNat ≤ 36 → data.length = n.toNat → Holds s.dbuf 0 data →
      exec (.checksum n) s = .next
        { s with
          result := BitVec.ofNat 32 (255 - (data.map BitVec.toNat).sum % 256)
          code := .ok, detail := 0#8, done := true, busy := false
          phase := .idle, timer := none, pending := none })

/-- VALIDATE (R186): RESULT bit 0 is valid, bit 1 the length test, bits [15:8] the validity sum, 0 when
the length is out of range; always OK. Nothing else changes. Its word is OP 0x11 alone. -/
def Obligations.ValidateCommandResult : Prop :=
  encode .validate = 0x11#64 ∧ Instr.wellFormed .validate = true ∧
  ∀ (s : State) (l : Byte), Memory.read s.dbuf 35 = some l →
    (¬(4 ≤ l.toNat ∧ l.toNat ≤ 36) → exec .validate s = .next
      { s with
        result := 0#32
        code := .ok, detail := 0#8, done := true, busy := false
        phase := .idle, timer := none, pending := none }) ∧
    (∀ (c : Byte) (covered : List Byte), 4 ≤ l.toNat → l.toNat ≤ 36 →
      Memory.read s.dbuf 34 = some c → covered.length = l.toNat - 2 → Holds s.dbuf 0 covered →
      let sum := (c.toNat + (covered.map BitVec.toNat).sum) % 256
      exec .validate s = .next
        { s with
          result := BitVec.ofNat 32 (256 * sum + 2 + if sum = 0 then 0 else 1)
          code := .ok, detail := 0#8, done := true, busy := false
          phase := .idle, timer := none, pending := none })

/-- The padding of a frame is not read (R181): if two machines' DBUFs agree on the length byte, the
checksum byte and the covered bytes, VALIDATE answers the same RESULT in both. -/
def Obligations.ValidateIgnoresPadding : Prop :=
  ∀ (s1 s2 t1 : State) (l : Byte), Memory.read s1.dbuf 35 = some l →
    (∀ k, k < l.toNat - 2 ∨ k = 34 ∨ k = 35 → Memory.read s1.dbuf k = Memory.read s2.dbuf k) →
    exec .validate s1 = .next t1 →
    ∃ t2, exec .validate s2 = .next t2 ∧ t2.result = t1.result ∧ t2.code = t1.code

/-! ## The codec unit -/

/-- COMPOSE_WORD (R161), with its encoding, operands, buffer select, errors in order, and result. Nothing
else changes. -/
def Obligations.ComposeWordResult : Prop :=
  ∀ (i le bsel : Half) (s : State),
    let b : Buf := if bsel.getLsbD 0 then .out else .dbuf
    let size : Nat := if bsel.getLsbD 0 then 32 else 36
    encode (.composeWord i le bsel) =
      BitVec.ofNat 64 (0x20 + 2 ^ 16 * i.toNat + 2 ^ 32 * le.toNat + 2 ^ 48 * bsel.toNat) ∧
    (Instr.wellFormed (.composeWord i le bsel) = true ↔ le.toNat ≤ 1 ∧ bsel.toNat ≤ 1) ∧
    (le.getLsbD 0 = false → i.toNat = 0 → exec (.composeWord i le bsel) s = .next
      { s with
        code := .codecError, detail := 0x01#8, done := true, busy := false
        phase := .idle, timer := none, pending := none }) ∧
    ((le.getLsbD 0 = true ∧ size ≤ i.toNat + 1) ∨ (le.getLsbD 0 = false ∧ size ≤ i.toNat) →
      exec (.composeWord i le bsel) s = .next
        { s with
          code := .codecError, detail := 0x02#8, done := true, busy := false
          phase := .idle, timer := none, pending := none }) ∧
    (∀ (j : Nat) (lo hi : Byte),
      (le.getLsbD 0 = true ∧ j = i.toNat + 1) ∨ (le.getLsbD 0 = false ∧ i.toNat = j + 1) →
      i.toNat < size → j < size →
      Memory.read (s.memory b) i.toNat = some lo → Memory.read (s.memory b) j = some hi →
      exec (.composeWord i le bsel) s = .next
        { s with
          result := BitVec.ofNat 32 (256 * hi.toNat + lo.toNat)
          code := .ok, detail := 0#8, done := true, busy := false
          phase := .idle, timer := none, pending := none })

/-- COMPOSE_VALUE (R162, R163): ORDER, SPAN and BEYOND in that order, RESULT unchanged; else RESULT is
the little-endian value of the bytes from..till of the selected buffer. Nothing else changes. Its word has
OP 0x21, fields A and B, and bit 0 of C. -/
def Obligations.ComposeValueResult : Prop :=
  ∀ (f l bsel : Half) (s : State),
    let b : Buf := if bsel.getLsbD 0 then .out else .dbuf
    let size : Nat := if bsel.getLsbD 0 then 32 else 36
    encode (.composeValue f l bsel) =
      BitVec.ofNat 64 (0x21 + 2 ^ 16 * f.toNat + 2 ^ 32 * l.toNat + 2 ^ 48 * bsel.toNat) ∧
    (Instr.wellFormed (.composeValue f l bsel) = true ↔ bsel.toNat ≤ 1) ∧
    (l.toNat ≤ f.toNat → exec (.composeValue f l bsel) s = .next
      { s with
        code := .codecError, detail := 0x03#8, done := true, busy := false
        phase := .idle, timer := none, pending := none }) ∧
    (f.toNat + 3 < l.toNat → exec (.composeValue f l bsel) s = .next
      { s with
        code := .codecError, detail := 0x04#8, done := true, busy := false
        phase := .idle, timer := none, pending := none }) ∧
    (f.toNat < l.toNat → l.toNat ≤ f.toNat + 3 → size ≤ l.toNat → exec (.composeValue f l bsel) s = .next
      { s with
        code := .codecError, detail := 0x02#8, done := true, busy := false
        phase := .idle, timer := none, pending := none }) ∧
    (∀ bytes : List Byte, f.toNat < l.toNat → l.toNat ≤ f.toNat + 3 → l.toNat < size →
      bytes.length = l.toNat - f.toNat + 1 → Holds (s.memory b) f.toNat bytes →
      exec (.composeValue f l bsel) s = .next
        { s with
          result := BitVec.ofNat 32 (leNat bytes)
          code := .ok, detail := 0#8, done := true, busy := false
          phase := .idle, timer := none, pending := none })

/-- COMPOSE_DWORD (R164): RESULT is the little-endian value of the first four bytes of the selected
buffer, whatever OUT_LEN is; nothing else changes. Its word has OP 0x22 and bit 0 of C. -/
def Obligations.ComposeDwordResult : Prop :=
  ∀ (bsel : Half) (s : State) (b0 b1 b2 b3 : Byte),
    let b : Buf := if bsel.getLsbD 0 then .out else .dbuf
    encode (.composeDword bsel) = BitVec.ofNat 64 (0x22 + 2 ^ 48 * bsel.toNat) ∧
    (Instr.wellFormed (.composeDword bsel) = true ↔ bsel.toNat ≤ 1) ∧
    (Holds (s.memory b) 0 [b0, b1, b2, b3] → exec (.composeDword bsel) s = .next
      { s with
        result := b3 ++ b2 ++ b1 ++ b0
        code := .ok, detail := 0#8, done := true, busy := false
        phase := .idle, timer := none, pending := none })

/-- The round-trip law (R166): the little-endian bytes of a `u16` at any index with room compose back to
it. -/
def Obligations.ComposeWordRoundTrip : Prop :=
  ∀ (v i bsel : Half) (s : State),
    let b : Buf := if bsel.getLsbD 0 then .out else .dbuf
    let size : Nat := if bsel.getLsbD 0 then 32 else 36
    i.toNat + 1 < size → Holds (s.memory b) i.toNat [lo8 v, hi8 v] →
    ∃ t, exec (.composeWord i 1#16 bsel) s = .next t ∧ t.code = .ok ∧ t.result = v.setWidth 32

/-- A mixed-width view of one buffer is consistent (R88): a dword is its low word and its high word. -/
def Obligations.DwordIsTwoWords : Prop :=
  ∀ (bsel : Half) (s t tl th : State), exec (.composeDword bsel) s = .next t →
    exec (.composeWord 0#16 1#16 bsel) s = .next tl → exec (.composeWord 2#16 1#16 bsel) s = .next th →
    t.result = tl.result ||| th.result <<< 16

/-! ## The transport commands at acceptance -/

/-- The ungated commands begin (R213, R221, R270, R275): MAC_READ, MAC_CMD and UNSEAL, with every operand,
issue their first bus write, low byte first. Nothing else changes. -/
def Obligations.UngatedCommandsBegin : Prop :=
  ∀ (a b : Half) (s : State),
    exec (.macRead a) s = .next
      { s with
        phase := .wCmd, timer := none, pending := some (.write 0x3E#8 [lo8 a, hi8 a])
        history := s.history ++ [.request (.write 0x3E#8 [lo8 a, hi8 a])] } ∧
    exec (.macCmd a b) s = .next
      { s with
        phase := .wCmd, timer := none, pending := some (.write 0x3E#8 [lo8 a, hi8 a])
        history := s.history ++ [.request (.write 0x3E#8 [lo8 a, hi8 a])] } ∧
    exec (.unsealKey a b) s = .next
      { s with
        phase := .wKey1, timer := none, pending := some (.write 0x3E#8 [lo8 a, hi8 a])
        history := s.history ++ [.request (.write 0x3E#8 [lo8 a, hi8 a])] }

/-- The gates (R210, R212): DF_READ and DF_WRITE outside the window end with RANGE_ERROR(ADDR), a DF_WRITE
inside it with a length outside 1 to 32 ends with RANGE_ERROR(SIZE), in the accepting step and with no bus
request. Nothing else changes. -/
def Obligations.GatesEndBeforeTheBus : Prop :=
  ∀ (a n : Half) (s : State),
    (a.toNat < 0x4000 ∨ 0x5FFF < a.toNat →
      exec (.dfWrite a n) s = exec (.dfRead a) s ∧
      exec (.dfRead a) s = .next
        { s with
          code := .rangeError, detail := 0x01#8, done := true, busy := false
          phase := .idle, timer := none, pending := none }) ∧
    (0x4000 ≤ a.toNat → a.toNat ≤ 0x5FFF → n.toNat = 0 ∨ 32 < n.toNat → exec (.dfWrite a n) s = .next
      { s with
        code := .rangeError, detail := 0x02#8, done := true, busy := false
        phase := .idle, timer := none, pending := none })

/-- The data-flash commands begin (R214, R221, R260, R261): inside the window DF_READ issues its command
write and DF_WRITE, of 1 to 32 bytes and even past the window's end, one payload write of the address and
all n payload bytes. Nothing else changes. -/
def Obligations.DataFlashCommandsBegin : Prop :=
  ∀ (a n : Half) (s : State), 0x4000 ≤ a.toNat → a.toNat ≤ 0x5FFF →
    exec (.dfRead a) s = .next
      { s with
        phase := .wCmd, timer := none, pending := some (.write 0x3E#8 [lo8 a, hi8 a])
        history := s.history ++ [.request (.write 0x3E#8 [lo8 a, hi8 a])] } ∧
    (∀ payload : List Byte, 1 ≤ n.toNat → n.toNat ≤ 32 →
      payload.length = n.toNat → Holds s.dbuf 0 payload →
      exec (.dfWrite a n) s = .next
        { s with
          phase := .wPay, timer := none, pending := some (.write 0x3E#8 ([lo8 a, hi8 a] ++ payload))
          history := s.history ++ [.request (.write 0x3E#8 ([lo8 a, hi8 a] ++ payload))] })

/-- A pure command's frame (R142, R51): when it runs it ends in that step, with no bus request, and writes
nothing but STATUS and, only if it succeeds, RESULT. -/
def Obligations.PureCommandFrame : Prop :=
  ∀ (i : Instr) (s t : State), i.op.pure = true → exec i s = .next t →
    t = { s with
      result := t.result, code := t.code, detail := t.detail, done := true, busy := false
      phase := .idle, timer := none, pending := none } ∧
    (t.code ≠ .ok → t.result = s.result)

/-- A transport command's frame at acceptance (R51, R39): no register but STATUS is written, and either
one request is issued and the command runs on, or a gate ends it with no request. -/
def Obligations.TransportCommandFrame : Prop :=
  ∀ (i : Instr) (s t : State), i.op.pure = false → exec i s = .next t →
    t.cmd = s.cmd ∧ t.reject = s.reject ∧ t.result = s.result ∧ t.outLen = s.outLen ∧ t.out = s.out ∧
    t.dbuf = s.dbuf ∧ t.frame = s.frame ∧ t.now = s.now ∧ t.abandoned = s.abandoned ∧
    t.schedule = s.schedule ∧
    ((∃ r, t.pending = some r ∧ t.history = s.history ++ [.request r] ∧ t.busy = s.busy ∧
        t.done = s.done ∧ t.code = s.code ∧ t.detail = s.detail) ∨
     (t.pending = none ∧ t.history = s.history ∧ t.busy = false ∧ t.done = true ∧ t.code = .rangeError))

/-! ## The transport sequencer -/

/-- A whole block read (R220, R231): from any idle machine, MAC_READ or a gated DF_READ answered `ok`,
`ok` and a frame rule R182 accepts, its delay passed, ends with OK after exactly the bus history of
R231; the payload stands in OUT, its length in OUT_LEN, the frame in FRAME, and no other register
changes. -/
def Obligations.BlockReadExchange : Prop :=
  ∀ (s : State) (i : Instr) (a : Half) (b1 b2 frame : List Byte) (ms : Nat) (rest : List Event),
    s.busy = false → (i = .macRead a ∨ (i = .dfRead a ∧ 0x4000 ≤ a.toNat ∧ a.toNat ≤ 0x5FFF)) →
    5 ≤ ms → frame.length = 36 →
    4 ≤ (frame.getD 35 0#8).toNat → (frame.getD 35 0#8).toNat ≤ 36 →
    ((frame.getD 34 0#8).toNat +
      ((frame.take ((frame.getD 35 0#8).toNat - 2)).map BitVec.toNat).sum) % 256 ≠ 0 →
    s.schedule = [.host (.issueCmd (encode i)), .answer (.ok b1), .elapse ms, .sequencer,
      .answer (.ok b2), .answer (.ok frame)] ++ rest →
    ∃ t, Host.Core.run Sys2Proof.core 6 s = .next t ∧
      t = { s with
        cmd := encode i, busy := false, done := true, code := .ok, detail := 0#8
        outLen := BitVec.ofNat 8 ((frame.getD 35 0#8).toNat - 4), out := t.out, frame := t.frame
        phase := .idle, timer := none, pending := none, now := s.now + ms, schedule := rest
        history := s.history ++ [.host (.issueCmd (encode i)),
          .request (.write 0x3E#8 [lo8 a, hi8 a]), .answer (.ok b1),
          .settleEnter 5 s.now, .settleExit 5 (s.now + ms),
          .request (.write 0x3E#8 []), .answer (.ok b2),
          .request (.read 36#8), .answer (.ok frame)] } ∧
      (∀ k, k < (frame.getD 35 0#8).toNat - 4 → Memory.read t.out k = frame[2 + k]?) ∧
      (∀ k, (frame.getD 35 0#8).toNat - 4 ≤ k → Memory.read t.out k = Memory.read s.out k) ∧
      (∀ k, k < 36 → Memory.read t.frame k = frame[k]?)

/-- A whole data-flash write (R260-R263): from any idle machine, DF_WRITE through both gates, both bus
writes answered `ok`, its 200 ms passed, ends with OK after exactly two bus writes, the payload write and
the trailer `[0x60, checksum, n + 4]`; nothing but CMD and STATUS changes. -/
def Obligations.DfWriteExchange : Prop :=
  ∀ (s : State) (a n : Half) (payload b1 b2 : List Byte) (ms : Nat) (rest : List Event),
    s.busy = false → 0x4000 ≤ a.toNat → a.toNat ≤ 0x5FFF → 1 ≤ n.toNat → n.toNat ≤ 32 →
    payload.length = n.toNat → Holds s.dbuf 0 payload → 200 ≤ ms →
    s.schedule = [.host (.issueCmd (encode (.dfWrite a n))), .answer (.ok b1), .answer (.ok b2),
      .elapse ms, .sequencer] ++ rest →
    let tx := [lo8 a, hi8 a] ++ payload
    let trailer := BusReq.write 0x60#8
      [BitVec.ofNat 8 (255 - (tx.map BitVec.toNat).sum % 256), BitVec.ofNat 8 (n.toNat + 4)]
    Host.Core.run Sys2Proof.core 5 s = .next
      { s with
        cmd := encode (.dfWrite a n), busy := false, done := true, code := .ok, detail := 0#8
        phase := .idle, timer := none, pending := none, now := s.now + ms, schedule := rest
        history := s.history ++ [.host (.issueCmd (encode (.dfWrite a n))),
          .request (.write 0x3E#8 tx), .answer (.ok b1), .request trailer, .answer (.ok b2),
          .settleEnter 200 s.now, .settleExit 200 (s.now + ms)] }

/-- A whole command-only operation (R270, R271): from any idle machine, MAC_CMD of each delay class,
answered `ok`, ends with OK after its command write and the delay of its class, 5, 500, 500 or 1000 ms;
nothing but CMD and STATUS changes. -/
def Obligations.MacCmdExchange : Prop :=
  ∀ (s : State) (a cls : Half) (b1 : List Byte) (d ms : Nat) (rest : List Event),
    s.busy = false → (cls, d) ∈ [(0#16, 5), (1#16, 500), (2#16, 500), (3#16, 1000)] → d ≤ ms →
    s.schedule = [.host (.issueCmd (encode (.macCmd a cls))), .answer (.ok b1), .elapse ms, .sequencer]
      ++ rest →
    Host.Core.run Sys2Proof.core 4 s = .next
      { s with
        cmd := encode (.macCmd a cls), busy := false, done := true, code := .ok, detail := 0#8
        phase := .idle, timer := none, pending := none, now := s.now + ms, schedule := rest
        history := s.history ++ [.host (.issueCmd (encode (.macCmd a cls))),
          .request (.write 0x3E#8 [lo8 a, hi8 a]), .answer (.ok b1),
          .settleEnter d s.now, .settleExit d (s.now + ms)] }

/-- A whole unseal (R275): from any idle machine, UNSEAL answered `ok` twice ends with OK after its two
key writes, each low byte first, and 1000 ms; nothing but CMD and STATUS changes. -/
def Obligations.UnsealExchange : Prop :=
  ∀ (s : State) (k1 k2 : Half) (b1 b2 : List Byte) (ms : Nat) (rest : List Event),
    s.busy = false → 1000 ≤ ms →
    s.schedule = [.host (.issueCmd (encode (.unsealKey k1 k2))), .answer (.ok b1), .answer (.ok b2),
      .elapse ms, .sequencer] ++ rest →
    Host.Core.run Sys2Proof.core 5 s = .next
      { s with
        cmd := encode (.unsealKey k1 k2), busy := false, done := true, code := .ok, detail := 0#8
        phase := .idle, timer := none, pending := none, now := s.now + ms, schedule := rest
        history := s.history ++ [.host (.issueCmd (encode (.unsealKey k1 k2))),
          .request (.write 0x3E#8 [lo8 k1, hi8 k1]), .answer (.ok b1),
          .request (.write 0x3E#8 [lo8 k2, hi8 k2]), .answer (.ok b2),
          .settleEnter 1000 s.now, .settleExit 1000 (s.now + ms)] }

/-- An `ioerr` ends the command at once (R265, R48): in every phase with a bus call, IO_ERROR with that
phase's number, no later bus call, no delay, nothing else changed. -/
def Obligations.IoErrorEndsCommand : Prop :=
  ∀ (s : State) (p : Phase) (d : Byte) (r : BusReq) (rest : List Event),
    (p, d) ∈ [(Phase.wCmd, 0x01#8), (Phase.wPtr, 0x03#8), (Phase.rBlk, 0x04#8), (Phase.wPay, 0x05#8),
      (Phase.wTrl, 0x06#8), (Phase.wKey1, 0x07#8), (Phase.wKey2, 0x08#8)] →
    s.phase = p → s.pending = some r → s.schedule = .answer .ioerr :: rest →
    step s = .next
      { s with
        schedule := rest, history := s.history ++ [.answer .ioerr]
        code := .ioError, detail := d, done := true, busy := false
        phase := .idle, timer := none, pending := none }

/-- The answer `ok` in each write phase (R221, R223, R260, R270, R275): the next request, or SETTLE with
T0 the time of the answer; nothing else changes. -/
def Obligations.OkAnswerGoesOn : Prop :=
  ∀ (s : State) (b : List Byte) (r : BusReq) (rest : List Event),
    s.pending = some r → s.schedule = .answer (.ok b) :: rest →
    (∀ a : Half, s.phase = .wCmd → s.cmd = encode (.macRead a) ∨ s.cmd = encode (.dfRead a) →
      step s = .next
        { s with
          schedule := rest, phase := .settle, timer := some ⟨s.now, 5, .pointerWrite⟩, pending := none
          history := s.history ++ [.answer (.ok b), .settleEnter 5 s.now] }) ∧
    (∀ (a cls : Half) (d : Nat), (cls, d) ∈ [(0#16, 5), (1#16, 500), (2#16, 500), (3#16, 1000)] →
      s.phase = .wCmd → s.cmd = encode (.macCmd a cls) →
      step s = .next
        { s with
          schedule := rest, phase := .settle, timer := some ⟨s.now, d, .complete⟩, pending := none
          history := s.history ++ [.answer (.ok b), .settleEnter d s.now] }) ∧
    (s.phase = .wPtr → step s = .next
      { s with
        schedule := rest, phase := .rBlk, timer := none, pending := some (.read 36#8)
        history := s.history ++ [.answer (.ok b), .request (.read 36#8)] }) ∧
    (∀ tx : List Byte, s.phase = .wPay → r = .write 0x3E#8 tx →
      let trailer := BusReq.write 0x60#8
        [BitVec.ofNat 8 (255 - (tx.map BitVec.toNat).sum % 256), BitVec.ofNat 8 (tx.length + 2)]
      step s = .next
        { s with
          schedule := rest, phase := .wTrl, timer := none, pending := some trailer
          history := s.history ++ [.answer (.ok b), .request trailer] }) ∧
    (s.phase = .wTrl → step s = .next
      { s with
        schedule := rest, phase := .settle, timer := some ⟨s.now, 200, .complete⟩, pending := none
        history := s.history ++ [.answer (.ok b), .settleEnter 200 s.now] }) ∧
    (∀ k1 k2 : Half, s.phase = .wKey1 → s.cmd = encode (.unsealKey k1 k2) →
      step s = .next
        { s with
          schedule := rest, phase := .wKey2, timer := none
          pending := some (.write 0x3E#8 [lo8 k2, hi8 k2])
          history := s.history ++ [.answer (.ok b), .request (.write 0x3E#8 [lo8 k2, hi8 k2])] }) ∧
    (s.phase = .wKey2 → step s = .next
      { s with
        schedule := rest, phase := .settle, timer := some ⟨s.now, 1000, .complete⟩, pending := none
        history := s.history ++ [.answer (.ok b), .settleEnter 1000 s.now] })

/-- The answer of a block read (R226, R227, R182): a count other than 36 is IO_ERROR 0x14 with FRAME
unchanged; 36 bytes go to FRAME, and a frame that fails validation ends with CHECKSUM_ERROR and no
output. -/
def Obligations.BadReadAnswersFail : Prop :=
  ∀ (s : State) (r : BusReq) (bytes : List Byte) (rest : List Event),
    s.phase = .rBlk → s.pending = some r → s.schedule = .answer (.ok bytes) :: rest →
    (bytes.length ≠ 36 → step s = .next
      { s with
        schedule := rest, history := s.history ++ [.answer (.ok bytes)]
        code := .ioError, detail := 0x14#8, done := true, busy := false
        phase := .idle, timer := none, pending := none }) ∧
    (∀ d : Byte, bytes.length = 36 →
      (d = 0x02#8 ∧ validate bytes = .badLength) ∨ (d = 0x01#8 ∧ validate bytes = .sumZero) →
      ∃ t, step s = .next t ∧ (∀ k, k < 36 → Memory.read t.frame k = bytes[k]?) ∧
        t = { s with
          schedule := rest, history := s.history ++ [.answer (.ok bytes)], frame := t.frame
          code := .checksumError, detail := d, done := true, busy := false
          phase := .idle, timer := none, pending := none })

/-- A sealed device's zeros (R184, R232): a frame of zero bytes, whatever its length byte, never reaches
OUT: the read ends with CHECKSUM_ERROR, detail LENGTH when the length byte is 0 too. -/
def Obligations.ZeroFrameFailsRead : Prop :=
  ∀ (s : State) (r : BusReq) (l : Byte) (rest : List Event),
    s.phase = .rBlk → s.pending = some r →
    s.schedule = .answer (.ok (List.replicate 35 0#8 ++ [l])) :: rest →
    ∃ t, step s = .next t ∧ t.code = .checksumError ∧ t.done = true ∧ t.out = s.out ∧
      t.outLen = s.outLen ∧ t.result = s.result ∧ (l = 0#8 → t.detail = 0x02#8) ∧
      (4 ≤ l.toNat → l.toNat ≤ 36 → t.detail = 0x01#8)

/-- A settle delay is a lower bound (R330): the sequencer's step waits before T0 + D, and from then on
leaves SETTLE, for the pointer write or for completion. -/
def Obligations.SettleStepWaitsThenLeaves : Prop :=
  ∀ (s : State) (t0 d : Nat) (next : AfterSettle) (rest : List Event),
    s.phase = .settle → s.timer = some ⟨t0, d, next⟩ → s.schedule = .sequencer :: rest →
    (s.now < t0 + d → step s = .next { s with schedule := rest }) ∧
    (t0 + d ≤ s.now → next = .pointerWrite → step s = .next
      { s with
        schedule := rest, phase := .wPtr, timer := none, pending := some (.write 0x3E#8 [])
        history := s.history ++ [.settleExit d s.now, .request (.write 0x3E#8 [])] }) ∧
    (t0 + d ≤ s.now → next = .complete → step s = .next
      { s with
        schedule := rest, history := s.history ++ [.settleExit d s.now]
        code := .ok, detail := 0#8, done := true, busy := false
        phase := .idle, timer := none, pending := none })

/-- No agent can cut a settle delay short but a reset (R330, R350): a step that leaves SETTLE is the
host's Reset, or the sequencer's own with the delay passed. -/
def Obligations.OnlyElapsedDelayLeavesSettle : Prop :=
  ∀ (s t : State) (timer : SettleTimer), s.busy = true → s.phase = .settle → s.timer = some timer →
    step s = .next t → t.phase ≠ .settle →
    (∃ rest, s.schedule = .host .reset :: rest) ∨
    (∃ rest, s.schedule = .sequencer :: rest ∧ timer.t0 + timer.delay ≤ s.now)

/-- A bus call that is not answered keeps the sequencer waiting (R33): outside SETTLE its own step changes
nothing. -/
def Obligations.SequencerWaitsForAnswer : Prop :=
  ∀ (s : State) (rest : List Event), s.phase ≠ .settle → s.schedule = .sequencer :: rest →
    step s = .next { s with schedule := rest }

/-- Time advances and changes nothing else (R331). -/
def Obligations.TimeChangesOnlyNow : Prop :=
  ∀ (s : State) (ms : Nat) (rest : List Event), s.schedule = .elapse ms :: rest →
    step s = .next { s with schedule := rest, now := s.now + ms }

/-- Reset during a command abandons it (R342): no completion code is written, what was sent and answered
stays in the history, the outstanding bus call becomes an abandoned one, and its late answer is discarded,
whatever it is and whenever it comes, in any phase: it changes nothing but the count of abandoned calls, the
history and the schedule. A settle delay in progress is cut short; that the history then shows the Reset
alone is the model's choice (notes/assumptions/20.md). -/
def Obligations.ResetAbandonsCommand : Prop :=
  (∀ (s : State) (r : BusReq) (a : BusAnswer) (rest : List Event),
    s.pending = some r → s.schedule = .host .reset :: .lateAnswer a :: rest →
    Host.Core.run Sys2Proof.core 2 s = .next
      { State.reset with
        now := s.now, abandoned := s.abandoned, schedule := rest
        history := s.history ++ [.host .reset, .lateAnswer a] }) ∧
  (∀ (s : State) (r : BusReq) (rest : List Event),
    s.pending = some r → s.schedule = .host .reset :: rest →
    step s = .next
      { State.reset with
        now := s.now, abandoned := s.abandoned + 1, schedule := rest
        history := s.history ++ [.host .reset] }) ∧
  (∀ (s : State) (n : Nat) (a : BusAnswer) (rest : List Event),
    s.abandoned = n + 1 → s.schedule = .lateAnswer a :: rest →
    step s = .next
      { s with abandoned := n, schedule := rest, history := s.history ++ [.lateAnswer a] }) ∧
  (∀ (s : State) (rest : List Event),
    s.phase = .settle → s.pending = none → s.schedule = .host .reset :: rest →
    step s = .next
      { State.reset with
        now := s.now, abandoned := s.abandoned, schedule := rest
        history := s.history ++ [.host .reset] }) ∧
  State.reset.done = false

/-! ## Whole-machine rules -/

/-- Who writes DBUF (R54): nobody but the host, by a byte write while BUSY = 0 or by Reset. -/
def Obligations.OnlyHostWritesDbuf : Prop :=
  ∀ s t : State, step s = .next t → t.dbuf ≠ s.dbuf →
    (∃ rest, s.schedule = .host .reset :: rest) ∨
    (s.busy = false ∧ ∃ i v rest, i < 36 ∧ t.dbuf = Memory.write s.dbuf i v ∧ WriteNext s i v rest)

/-- Who writes RESULT (R51): Reset, or a pure command that succeeds, in the step that accepts its word; it
is 0 after reset. -/
def Obligations.OnlyPureCommandsWriteResult : Prop :=
  (∀ s t : State, step s = .next t → t.result ≠ s.result →
    (∃ rest, s.schedule = .host .reset :: rest) ∨
    (s.busy = false ∧ t.busy = false ∧ t.done = true ∧ t.code = .ok ∧
      ∃ i rest, IssueNext s t.cmd rest ∧ decode t.cmd = .command i ∧
        i.op ∈ [Op.checksum, .validate, .addrCheck, .sizeCheck, .composeWord, .composeValue,
          .composeDword])) ∧
  State.reset.result = 0#32

/-- Who writes OUT and OUT_LEN (R52, R53), and FRAME (R55): Reset; a 36-byte answer to the block read,
and OUT and OUT_LEN only if it completes the command with OK. -/
def Obligations.OnlyBlockReadsWriteOutput : Prop :=
  ∀ s t : State, step s = .next t → t.out ≠ s.out ∨ t.outLen ≠ s.outLen ∨ t.frame ≠ s.frame →
    (∃ rest, s.schedule = .host .reset :: rest) ∨
    (s.phase = .rBlk ∧ t.done = true ∧
      (∃ bytes rest, bytes.length = 36 ∧ s.schedule = .answer (.ok bytes) :: rest) ∧
      (t.out ≠ s.out ∨ t.outLen ≠ s.outLen → t.code = .ok))

/-- Every register write of a command but STATUS.PHASE happens in the step that completes it (R103): a
step from a running command to a running command changes no other register. -/
def Obligations.RunningCommandWritesNothing : Prop :=
  ∀ s t : State, step s = .next t → s.busy = true → t.busy = true →
    t.cmd = s.cmd ∧ t.done = s.done ∧ t.code = s.code ∧ t.detail = s.detail ∧ t.result = s.result ∧
    t.outLen = s.outLen ∧ t.out = s.out ∧ t.dbuf = s.dbuf ∧ t.frame = s.frame

/-- The BTF's bus requests (R81, R91, R126): whatever step issues one, it is a write to 0x3E, the two
trailer bytes to 0x60, or the 36-byte read. -/
def Obligations.BusRequestsAreOfThreeForms : Prop :=
  ∀ (s t : State) (r : BusReq), step s = .next t → .request r ∈ t.history →
    .request r ∈ s.history ∨ (∃ data, r = .write 0x3E#8 data) ∨
    (∃ cs len, r = .write 0x60#8 [cs, len]) ∨ r = .read 36#8

/-- The history only grows (R101, R108), by at most two observations a step and at most one bus request
among them (R35). -/
def Obligations.HistoryOnlyGrows : Prop :=
  ∀ s t : State, step s = .next t → ∃ added : List Obs, t.history = s.history ++ added ∧
    added.length ≤ 2 ∧ ∀ r1 r2 : BusReq, added ≠ [.request r1, .request r2]

/-- The buffers keep their canonical form in every step, from every state in which they have it. -/
def Obligations.StepKeepsCanonicalBuffers : Prop :=
  ∀ s t : State, (∀ b, Memory.wf (s.memory b)) → step s = .next t → ∀ b, Memory.wf (t.memory b)

/-- The invariant holds after reset. -/
def Obligations.ResetMeetsInvariant : Prop := Inv State.reset

/-- Every step keeps the invariant: PHASE is IDLE exactly when BUSY = 0 (R56), exactly the request the
phase names is pending (R58), the timer runs only in SETTLE with a delay of the running command's row
(R57, R280), a DF_WRITE's pending bytes are those of DBUF (R106), CODE and DETAIL are 0 while a command
runs (R42) and a row of R48 after, and the buffers are canonical, inside their size, with whole payload
and frame (R52, R53, R92). -/
def Obligations.StepKeepsInvariant : Prop :=
  ∀ s t : State, Inv s → step s = .next t → Inv t

/-- No command can get stuck by the BTF's own doing (R306, R330): from every running command that meets
the invariant, at most five moves of the other agents, none a reset, bring it to completion with OK. -/
def Obligations.RunningCommandCanComplete : Prop :=
  ∀ s : State, Inv s → s.busy = true →
    ∃ moves : List Event, moves.length ≤ 5 ∧ (∀ a, .host a ∉ moves) ∧
      ∃ t, Host.Core.run Sys2Proof.core moves.length { s with schedule := moves } = .next t ∧
        t.busy = false ∧ t.done = true ∧ t.code = .ok

/-! ## The host's read helpers -/

/-- The read helpers (R150-R152): each issues its commands in turn, stops at the first that does not complete
with OK, and yields its value only if OUT_LEN has room for it: OUT[0], RESULT[15:0] after COMPOSE_WORD, or
the OUT[0] characters after OUT[0]. That DF_READ_WORD issues COMPOSE_WORD whatever OUT_LEN is, and looks at
OUT_LEN only once its whole expansion has run, is the model's choice (DESIGN CHOICE,
notes/assumptions/14.md): R151 gives the expansion and the test, not their order. That a
character may be any byte, one of 0x80 or more too, is another (DESIGN CHOICE, notes/assumptions/21.md). -/
def Obligations.ReadHelpersStopAtFirstFailure : Prop :=
  ∀ (addr : Half) (s read word : State) (more : List State),
    let readLines := [AsmLine.command (.dfRead addr), .waitDone]
    let failed (t : State) : Prop := ¬(t.done = true ∧ t.code = .ok)
    (dfReadByte addr).move s [] = .issue readLines ∧ (dfReadWord addr).move s [] = .issue readLines ∧
    (dfReadString addr).move s [] = .issue readLines ∧
    (failed read → (dfReadByte addr).move s (read :: more) = .failed ∧
      (dfReadWord addr).move s (read :: more) = .failed ∧
      (dfReadString addr).move s (read :: more) = .failed) ∧
    (¬failed read →
      (read.outLen = 0#8 → (dfReadByte addr).move s [read] = .failed ∧
        (dfReadString addr).move s [read] = .failed) ∧
      (∀ v, 1 ≤ read.outLen.toNat → Memory.read read.out 0 = some v →
        (dfReadByte addr).move s [read] = .value v ∧
        (read.outLen.toNat < 1 + v.toNat → (dfReadString addr).move s [read] = .failed) ∧
        (∀ chars : List Byte, 1 + v.toNat ≤ read.outLen.toNat → chars.length = v.toNat →
          Holds read.out 1 chars → (dfReadString addr).move s [read] = .value chars)) ∧
      (dfReadWord addr).move s [read] = .issue [.command (.composeWord 0#16 1#16 1#16)] ∧
      (failed word → (dfReadWord addr).move s (read :: word :: more) = .failed) ∧
      (¬failed word →
        (word.outLen.toNat < 2 → (dfReadWord addr).move s [read, word] = .failed) ∧
        (2 ≤ word.outLen.toNat →
          (dfReadWord addr).move s [read, word] = .value (word.result.setWidth 16))))
end

