-- ==== Sys2Proof/Laws/Decode.lean ====
section
/-! SUPPORT. The fields of a packed command word (spec 30_encoding.md R130). -/

namespace Sys2Proof

/-- Every bit of a packed command word. -/
theorem getLsbD_packWord (op : Byte) (a b c : Half) (i : Nat) :
    (packWord op a b c).getLsbD i =
      if i < 16 then op.getLsbD i
      else if i < 32 then a.getLsbD (i - 16)
      else if i < 48 then b.getLsbD (i - 32)
      else c.getLsbD (i - 48) := by
  simp only [packWord, BitVec.getLsbD_or, BitVec.getLsbD_shiftLeft, BitVec.getLsbD_setWidth]
  have hop : 8 ≤ i → op.getLsbD i = false := BitVec.getLsbD_of_ge op i
  have ha : 16 ≤ i - 16 → a.getLsbD (i - 16) = false := BitVec.getLsbD_of_ge a _
  have hb : 16 ≤ i - 32 → b.getLsbD (i - 32) = false := BitVec.getLsbD_of_ge b _
  have hc : 16 ≤ i - 48 → c.getLsbD (i - 48) = false := BitVec.getLsbD_of_ge c _
  by_cases h64 : i < 64
  · by_cases h16 : i < 16
    · simp [h16, h64, show i < 32 by omega, show i < 48 by omega]
    · by_cases h32 : i < 32
      · simp [h16, h32, h64, show i < 48 by omega, hop (by omega), show i - 16 < 64 by omega]
      · by_cases h48 : i < 48
        · simp [h16, h32, h48, h64, hop (by omega), ha (by omega), show i - 32 < 64 by omega]
        · simp [h16, h32, h48, h64, hop (by omega), ha (by omega), hb (by omega), show i - 48 < 64 by omega]
  · simp [h64, show ¬ i < 16 by omega, show ¬ i < 32 by omega, show ¬ i < 48 by omega, hc (by omega)]

@[simp] theorem fieldOp_packWord (op : Byte) (a b c : Half) : fieldOp (packWord op a b c) = op := by
  apply BitVec.eq_of_getLsbD_eq
  intro i hi
  rw [fieldOp, BitVec.getLsbD_extractLsb', getLsbD_packWord]
  simp [hi, show i < 16 by omega]

@[simp] theorem fieldRsv_packWord (op : Byte) (a b c : Half) : fieldRsv (packWord op a b c) = 0#8 := by
  apply BitVec.eq_of_getLsbD_eq
  intro i hi
  rw [fieldRsv, BitVec.getLsbD_extractLsb', getLsbD_packWord]
  simp [hi, show 8 + i < 16 by omega]

@[simp] theorem fieldA_packWord (op : Byte) (a b c : Half) : fieldA (packWord op a b c) = a := by
  apply BitVec.eq_of_getLsbD_eq
  intro i hi
  rw [fieldA, BitVec.getLsbD_extractLsb', getLsbD_packWord]
  simp [hi, show ¬ 16 + i < 16 by omega, show 16 + i < 32 by omega]

@[simp] theorem fieldB_packWord (op : Byte) (a b c : Half) : fieldB (packWord op a b c) = b := by
  apply BitVec.eq_of_getLsbD_eq
  intro i hi
  rw [fieldB, BitVec.getLsbD_extractLsb', getLsbD_packWord]
  simp [hi, show ¬ 32 + i < 16 by omega, show ¬ 32 + i < 32 by omega, show 32 + i < 48 by omega]

@[simp] theorem fieldC_packWord (op : Byte) (a b c : Half) : fieldC (packWord op a b c) = c := by
  apply BitVec.eq_of_getLsbD_eq
  intro i hi
  rw [fieldC, BitVec.getLsbD_extractLsb', getLsbD_packWord]
  simp [hi, show ¬ 48 + i < 16 by omega, show ¬ 48 + i < 32 by omega, show ¬ 48 + i < 48 by omega]

/-- Every OP value of the map names its opcode. -/
@[simp] theorem opOfCode_code (op : Op) : opOfCode op.code = some op := by
  cases op <;> decide

/-- The fields of an encoded command are its opcode and operands. -/
@[simp] theorem fieldOp_encode (i : Instr) : fieldOp (encode i) = i.op.code := by simp [encode]
@[simp] theorem fieldA_encode (i : Instr) : fieldA (encode i) = i.operandA := by simp [encode]
@[simp] theorem fieldB_encode (i : Instr) : fieldB (encode i) = i.operandB := by simp [encode]
@[simp] theorem fieldC_encode (i : Instr) : fieldC (encode i) = i.operandC := by simp [encode]

end Sys2Proof
end

