-- ==== Sys2Proof/Laws/Memory.lean ====
section
/-! SUPPORT. The laws of buffer memory: read after write, and that every operation keeps the canonical
form and the buffer's bounds. -/

namespace Sys2Proof.Machine

@[simp] theorem read_nil (a : Nat) : Memory.read [] a = none := rfl

/-- A read after a write gives the written byte at its index and leaves every other index alone. -/
theorem read_write (m : Memory) (a : Nat) (v : Byte) (b : Nat) :
    Memory.read (Memory.write m a v) b = if b = a then some v else Memory.read m b := by
  induction m with
  | nil => simp [Memory.write, Memory.read, eq_comm]
  | cons c m ih =>
    obtain ⟨k, x⟩ := c
    simp only [Memory.write]
    split_ifs with h1 h2 <;> simp only [Memory.read, ih] <;> split_ifs <;> first | rfl | omega

@[simp] theorem read_write_same (m : Memory) (a : Nat) (v : Byte) :
    Memory.read (Memory.write m a v) a = some v := by simp [read_write]

theorem read_write_other {a b : Nat} (m : Memory) (v : Byte) (h : b ≠ a) :
    Memory.read (Memory.write m a v) b = Memory.read m b := by simp [read_write, h]

/-- What a write of consecutive bytes leaves at an index: the byte written there, or what stood
there. -/
theorem read_writeRange (m : Memory) (a : Nat) (bs : List Byte) (b : Nat) :
    Memory.read (Memory.writeRange m a bs) b =
      if a ≤ b ∧ b < a + bs.length then bs[b - a]? else Memory.read m b := by
  induction bs generalizing m a with
  | nil => simp [Memory.writeRange]
  | cons x bs ih =>
    simp only [Memory.writeRange, ih, read_write, List.length_cons]
    by_cases hb : b = a
    · subst hb; simp
    · by_cases h : a + 1 ≤ b ∧ b < a + 1 + bs.length
      · obtain ⟨k, rfl⟩ : ∃ k, b = a + 1 + k := ⟨b - (a + 1), by omega⟩
        have : a + 1 + k - a = (a + 1 + k - (a + 1)) + 1 := by omega
        simp only [if_pos h, this, List.getElem?_cons_succ]
        rw [if_pos (by omega)]
      · rw [if_neg h, if_neg hb, if_neg (by omega)]

/-- Bytes just written can be read back. -/
theorem holds_writeRange (m : Memory) (a : Nat) (bs : List Byte) :
    Holds (Memory.writeRange m a bs) a bs := by
  intro k hk
  rw [read_writeRange, if_pos (by omega), Nat.add_sub_cancel_left, List.getElem?_eq_getElem hk]

/-- The entries after a write are old ones and the written one. -/
theorem mem_write {m : Memory} {a : Nat} {v : Byte} {c : Host.Cell} (h : c ∈ Memory.write m a v) :
    c = (a, v) ∨ c ∈ m := by
  induction m with
  | nil => simpa [Memory.write] using h
  | cons d m ih =>
    obtain ⟨k, x⟩ := d
    simp only [Memory.write] at h
    split_ifs at h <;> simp only [List.mem_cons] at h ⊢
    · tauto
    · tauto
    · rcases h with h | h
      · exact .inr (.inl h)
      · exact (ih h).imp id .inr

/-- A write keeps the canonical form. -/
theorem wf_write {m : Memory} (h : Memory.wf m) (a : Nat) (v : Byte) : Memory.wf (Memory.write m a v) := by
  induction m with
  | nil => simp [Memory.write]
  | cons d m ih =>
    obtain ⟨k, x⟩ := d
    simp only [Memory.write]
    rw [Memory.wf, List.pairwise_cons] at h
    split_ifs with h1 h2
    · refine List.Pairwise.cons ?_ (List.Pairwise.cons h.1 h.2)
      intro c hc
      rcases List.mem_cons.1 hc with rfl | hc
      · exact h1
      · exact Nat.lt_trans h1 (h.1 c hc)
    · subst h2; exact List.Pairwise.cons h.1 h.2
    · refine List.Pairwise.cons ?_ (ih h.2)
      intro c hc
      rcases mem_write hc with rfl | hc
      · show k < a; omega
      · exact h.1 c hc

/-- A write of consecutive bytes keeps the canonical form. -/
theorem wf_writeRange {m : Memory} (h : Memory.wf m) (a : Nat) (bs : List Byte) :
    Memory.wf (Memory.writeRange m a bs) := by
  induction bs generalizing m a with
  | nil => exact h
  | cons b bs ih => exact ih (wf_write h a b) (a + 1)

/-- The entries after a write of consecutive bytes are old ones and entries of the written range. -/
theorem mem_writeRange {m : Memory} {a : Nat} {bs : List Byte} {c : Host.Cell}
    (h : c ∈ Memory.writeRange m a bs) : (a ≤ c.1 ∧ c.1 < a + bs.length) ∨ c ∈ m := by
  induction bs generalizing m a with
  | nil => exact .inr h
  | cons b bs ih =>
    rcases ih h with h | h
    · left; simp only [List.length_cons]; omega
    · rcases mem_write h with rfl | h
      · left; simp only [List.length_cons]; omega
      · exact .inr h

/-- The reset memories are in canonical form. -/
theorem reset_canonical (b : Buf) : Memory.wf (State.reset.memory b) := by
  cases b <;> exact List.Pairwise.nil

end Sys2Proof.Machine
end

