-- ==== Sys2Proof/Laws/State.lean ====
section
/-! SUPPORT. What each field is after each update of the state: one lemma per field per update, so that
no proof unfolds a record update. -/

namespace Sys2Proof.Machine

@[simp] theorem complete_eq_raise (s : State) : s.complete = s.raise .success := rfl

/-! `State.observe`. -/

@[simp] theorem observe_cmd (o : Obs) (s : State) : (s.observe o).cmd = s.cmd := rfl
@[simp] theorem observe_busy (o : Obs) (s : State) : (s.observe o).busy = s.busy := rfl
@[simp] theorem observe_done (o : Obs) (s : State) : (s.observe o).done = s.done := rfl
@[simp] theorem observe_reject (o : Obs) (s : State) : (s.observe o).reject = s.reject := rfl
@[simp] theorem observe_code (o : Obs) (s : State) : (s.observe o).code = s.code := rfl
@[simp] theorem observe_detail (o : Obs) (s : State) : (s.observe o).detail = s.detail := rfl
@[simp] theorem observe_result (o : Obs) (s : State) : (s.observe o).result = s.result := rfl
@[simp] theorem observe_outLen (o : Obs) (s : State) : (s.observe o).outLen = s.outLen := rfl
@[simp] theorem observe_out (o : Obs) (s : State) : (s.observe o).out = s.out := rfl
@[simp] theorem observe_dbuf (o : Obs) (s : State) : (s.observe o).dbuf = s.dbuf := rfl
@[simp] theorem observe_frame (o : Obs) (s : State) : (s.observe o).frame = s.frame := rfl
@[simp] theorem observe_phase (o : Obs) (s : State) : (s.observe o).phase = s.phase := rfl
@[simp] theorem observe_timer (o : Obs) (s : State) : (s.observe o).timer = s.timer := rfl
@[simp] theorem observe_pending (o : Obs) (s : State) : (s.observe o).pending = s.pending := rfl
@[simp] theorem observe_now (o : Obs) (s : State) : (s.observe o).now = s.now := rfl
@[simp] theorem observe_abandoned (o : Obs) (s : State) : (s.observe o).abandoned = s.abandoned := rfl
@[simp] theorem observe_history (o : Obs) (s : State) : (s.observe o).history = s.history ++ [o] := rfl
@[simp] theorem observe_schedule (o : Obs) (s : State) : (s.observe o).schedule = s.schedule := rfl

/-! `State.accept`. -/

@[simp] theorem accept_cmd (w : Word64) (s : State) : (s.accept w).cmd = w := rfl
@[simp] theorem accept_busy (w : Word64) (s : State) : (s.accept w).busy = true := rfl
@[simp] theorem accept_done (w : Word64) (s : State) : (s.accept w).done = false := rfl
@[simp] theorem accept_reject (w : Word64) (s : State) : (s.accept w).reject = s.reject := rfl
@[simp] theorem accept_code (w : Word64) (s : State) : (s.accept w).code = .ok := rfl
@[simp] theorem accept_detail (w : Word64) (s : State) : (s.accept w).detail = 0#8 := rfl
@[simp] theorem accept_result (w : Word64) (s : State) : (s.accept w).result = s.result := rfl
@[simp] theorem accept_outLen (w : Word64) (s : State) : (s.accept w).outLen = s.outLen := rfl
@[simp] theorem accept_out (w : Word64) (s : State) : (s.accept w).out = s.out := rfl
@[simp] theorem accept_dbuf (w : Word64) (s : State) : (s.accept w).dbuf = s.dbuf := rfl
@[simp] theorem accept_frame (w : Word64) (s : State) : (s.accept w).frame = s.frame := rfl
@[simp] theorem accept_phase (w : Word64) (s : State) : (s.accept w).phase = s.phase := rfl
@[simp] theorem accept_timer (w : Word64) (s : State) : (s.accept w).timer = s.timer := rfl
@[simp] theorem accept_pending (w : Word64) (s : State) : (s.accept w).pending = s.pending := rfl
@[simp] theorem accept_now (w : Word64) (s : State) : (s.accept w).now = s.now := rfl
@[simp] theorem accept_abandoned (w : Word64) (s : State) : (s.accept w).abandoned = s.abandoned := rfl
@[simp] theorem accept_history (w : Word64) (s : State) : (s.accept w).history = s.history := rfl
@[simp] theorem accept_schedule (w : Word64) (s : State) : (s.accept w).schedule = s.schedule := rfl

/-! `State.raise`. -/

@[simp] theorem raise_cmd (c : Cause) (s : State) : (s.raise c).cmd = s.cmd := rfl
@[simp] theorem raise_busy (c : Cause) (s : State) : (s.raise c).busy = false := rfl
@[simp] theorem raise_done (c : Cause) (s : State) : (s.raise c).done = true := rfl
@[simp] theorem raise_reject (c : Cause) (s : State) : (s.raise c).reject = s.reject := rfl
@[simp] theorem raise_code (c : Cause) (s : State) : (s.raise c).code = c.code := rfl
@[simp] theorem raise_detail (c : Cause) (s : State) : (s.raise c).detail = c.detail := rfl
@[simp] theorem raise_result (c : Cause) (s : State) : (s.raise c).result = s.result := rfl
@[simp] theorem raise_outLen (c : Cause) (s : State) : (s.raise c).outLen = s.outLen := rfl
@[simp] theorem raise_out (c : Cause) (s : State) : (s.raise c).out = s.out := rfl
@[simp] theorem raise_dbuf (c : Cause) (s : State) : (s.raise c).dbuf = s.dbuf := rfl
@[simp] theorem raise_frame (c : Cause) (s : State) : (s.raise c).frame = s.frame := rfl
@[simp] theorem raise_phase (c : Cause) (s : State) : (s.raise c).phase = .idle := rfl
@[simp] theorem raise_timer (c : Cause) (s : State) : (s.raise c).timer = none := rfl
@[simp] theorem raise_pending (c : Cause) (s : State) : (s.raise c).pending = none := rfl
@[simp] theorem raise_now (c : Cause) (s : State) : (s.raise c).now = s.now := rfl
@[simp] theorem raise_abandoned (c : Cause) (s : State) : (s.raise c).abandoned = s.abandoned := rfl
@[simp] theorem raise_history (c : Cause) (s : State) : (s.raise c).history = s.history := rfl
@[simp] theorem raise_schedule (c : Cause) (s : State) : (s.raise c).schedule = s.schedule := rfl

/-! `State.completeWith`. -/

@[simp] theorem completeWith_cmd (v : Word32) (s : State) : (s.completeWith v).cmd = s.cmd := rfl
@[simp] theorem completeWith_busy (v : Word32) (s : State) : (s.completeWith v).busy = false := rfl
@[simp] theorem completeWith_done (v : Word32) (s : State) : (s.completeWith v).done = true := rfl
@[simp] theorem completeWith_reject (v : Word32) (s : State) : (s.completeWith v).reject = s.reject := rfl
@[simp] theorem completeWith_code (v : Word32) (s : State) : (s.completeWith v).code = .ok := rfl
@[simp] theorem completeWith_detail (v : Word32) (s : State) : (s.completeWith v).detail = 0#8 := rfl
@[simp] theorem completeWith_result (v : Word32) (s : State) : (s.completeWith v).result = v := rfl
@[simp] theorem completeWith_outLen (v : Word32) (s : State) : (s.completeWith v).outLen = s.outLen := rfl
@[simp] theorem completeWith_out (v : Word32) (s : State) : (s.completeWith v).out = s.out := rfl
@[simp] theorem completeWith_dbuf (v : Word32) (s : State) : (s.completeWith v).dbuf = s.dbuf := rfl
@[simp] theorem completeWith_frame (v : Word32) (s : State) : (s.completeWith v).frame = s.frame := rfl
@[simp] theorem completeWith_phase (v : Word32) (s : State) : (s.completeWith v).phase = .idle := rfl
@[simp] theorem completeWith_timer (v : Word32) (s : State) : (s.completeWith v).timer = none := rfl
@[simp] theorem completeWith_pending (v : Word32) (s : State) : (s.completeWith v).pending = none := rfl
@[simp] theorem completeWith_now (v : Word32) (s : State) : (s.completeWith v).now = s.now := rfl
@[simp] theorem completeWith_abandoned (v : Word32) (s : State) : (s.completeWith v).abandoned = s.abandoned := rfl
@[simp] theorem completeWith_history (v : Word32) (s : State) : (s.completeWith v).history = s.history := rfl
@[simp] theorem completeWith_schedule (v : Word32) (s : State) : (s.completeWith v).schedule = s.schedule := rfl

/-! `State.issue`. -/

@[simp] theorem issue_cmd (p : Phase) (r : BusReq) (s : State) : (s.issue p r).cmd = s.cmd := rfl
@[simp] theorem issue_busy (p : Phase) (r : BusReq) (s : State) : (s.issue p r).busy = s.busy := rfl
@[simp] theorem issue_done (p : Phase) (r : BusReq) (s : State) : (s.issue p r).done = s.done := rfl
@[simp] theorem issue_reject (p : Phase) (r : BusReq) (s : State) : (s.issue p r).reject = s.reject := rfl
@[simp] theorem issue_code (p : Phase) (r : BusReq) (s : State) : (s.issue p r).code = s.code := rfl
@[simp] theorem issue_detail (p : Phase) (r : BusReq) (s : State) : (s.issue p r).detail = s.detail := rfl
@[simp] theorem issue_result (p : Phase) (r : BusReq) (s : State) : (s.issue p r).result = s.result := rfl
@[simp] theorem issue_outLen (p : Phase) (r : BusReq) (s : State) : (s.issue p r).outLen = s.outLen := rfl
@[simp] theorem issue_out (p : Phase) (r : BusReq) (s : State) : (s.issue p r).out = s.out := rfl
@[simp] theorem issue_dbuf (p : Phase) (r : BusReq) (s : State) : (s.issue p r).dbuf = s.dbuf := rfl
@[simp] theorem issue_frame (p : Phase) (r : BusReq) (s : State) : (s.issue p r).frame = s.frame := rfl
@[simp] theorem issue_phase (p : Phase) (r : BusReq) (s : State) : (s.issue p r).phase = p := rfl
@[simp] theorem issue_timer (p : Phase) (r : BusReq) (s : State) : (s.issue p r).timer = none := rfl
@[simp] theorem issue_pending (p : Phase) (r : BusReq) (s : State) : (s.issue p r).pending = some r := rfl
@[simp] theorem issue_now (p : Phase) (r : BusReq) (s : State) : (s.issue p r).now = s.now := rfl
@[simp] theorem issue_abandoned (p : Phase) (r : BusReq) (s : State) : (s.issue p r).abandoned = s.abandoned := rfl
@[simp] theorem issue_history (p : Phase) (r : BusReq) (s : State) : (s.issue p r).history = s.history ++ [.request r] := rfl
@[simp] theorem issue_schedule (p : Phase) (r : BusReq) (s : State) : (s.issue p r).schedule = s.schedule := rfl

/-! `State.settle`. -/

@[simp] theorem settle_cmd (d : Nat) (n : AfterSettle) (s : State) : (s.settle d n).cmd = s.cmd := rfl
@[simp] theorem settle_busy (d : Nat) (n : AfterSettle) (s : State) : (s.settle d n).busy = s.busy := rfl
@[simp] theorem settle_done (d : Nat) (n : AfterSettle) (s : State) : (s.settle d n).done = s.done := rfl
@[simp] theorem settle_reject (d : Nat) (n : AfterSettle) (s : State) : (s.settle d n).reject = s.reject := rfl
@[simp] theorem settle_code (d : Nat) (n : AfterSettle) (s : State) : (s.settle d n).code = s.code := rfl
@[simp] theorem settle_detail (d : Nat) (n : AfterSettle) (s : State) : (s.settle d n).detail = s.detail := rfl
@[simp] theorem settle_result (d : Nat) (n : AfterSettle) (s : State) : (s.settle d n).result = s.result := rfl
@[simp] theorem settle_outLen (d : Nat) (n : AfterSettle) (s : State) : (s.settle d n).outLen = s.outLen := rfl
@[simp] theorem settle_out (d : Nat) (n : AfterSettle) (s : State) : (s.settle d n).out = s.out := rfl
@[simp] theorem settle_dbuf (d : Nat) (n : AfterSettle) (s : State) : (s.settle d n).dbuf = s.dbuf := rfl
@[simp] theorem settle_frame (d : Nat) (n : AfterSettle) (s : State) : (s.settle d n).frame = s.frame := rfl
@[simp] theorem settle_phase (d : Nat) (n : AfterSettle) (s : State) : (s.settle d n).phase = .settle := rfl
@[simp] theorem settle_timer (d : Nat) (n : AfterSettle) (s : State) : (s.settle d n).timer = some ⟨s.now, d, n⟩ := rfl
@[simp] theorem settle_pending (d : Nat) (n : AfterSettle) (s : State) : (s.settle d n).pending = none := rfl
@[simp] theorem settle_now (d : Nat) (n : AfterSettle) (s : State) : (s.settle d n).now = s.now := rfl
@[simp] theorem settle_abandoned (d : Nat) (n : AfterSettle) (s : State) : (s.settle d n).abandoned = s.abandoned := rfl
@[simp] theorem settle_history (d : Nat) (n : AfterSettle) (s : State) : (s.settle d n).history = s.history ++ [.settleEnter d s.now] := rfl
@[simp] theorem settle_schedule (d : Nat) (n : AfterSettle) (s : State) : (s.settle d n).schedule = s.schedule := rfl

/-! `State.dropWrite`. -/

@[simp] theorem dropWrite_cmd (s : State) : (s.dropWrite).cmd = s.cmd := rfl
@[simp] theorem dropWrite_busy (s : State) : (s.dropWrite).busy = s.busy := rfl
@[simp] theorem dropWrite_done (s : State) : (s.dropWrite).done = s.done := rfl
@[simp] theorem dropWrite_reject (s : State) : (s.dropWrite).reject = true := rfl
@[simp] theorem dropWrite_code (s : State) : (s.dropWrite).code = s.code := rfl
@[simp] theorem dropWrite_detail (s : State) : (s.dropWrite).detail = s.detail := rfl
@[simp] theorem dropWrite_result (s : State) : (s.dropWrite).result = s.result := rfl
@[simp] theorem dropWrite_outLen (s : State) : (s.dropWrite).outLen = s.outLen := rfl
@[simp] theorem dropWrite_out (s : State) : (s.dropWrite).out = s.out := rfl
@[simp] theorem dropWrite_dbuf (s : State) : (s.dropWrite).dbuf = s.dbuf := rfl
@[simp] theorem dropWrite_frame (s : State) : (s.dropWrite).frame = s.frame := rfl
@[simp] theorem dropWrite_phase (s : State) : (s.dropWrite).phase = s.phase := rfl
@[simp] theorem dropWrite_timer (s : State) : (s.dropWrite).timer = s.timer := rfl
@[simp] theorem dropWrite_pending (s : State) : (s.dropWrite).pending = s.pending := rfl
@[simp] theorem dropWrite_now (s : State) : (s.dropWrite).now = s.now := rfl
@[simp] theorem dropWrite_abandoned (s : State) : (s.dropWrite).abandoned = s.abandoned := rfl
@[simp] theorem dropWrite_history (s : State) : (s.dropWrite).history = s.history := rfl
@[simp] theorem dropWrite_schedule (s : State) : (s.dropWrite).schedule = s.schedule := rfl

/-! `elapse`: time changes nothing but itself (R331). -/

@[simp] theorem elapse_cmd (ms : Nat) (s : State) : (elapse ms s).cmd = s.cmd := rfl
@[simp] theorem elapse_busy (ms : Nat) (s : State) : (elapse ms s).busy = s.busy := rfl
@[simp] theorem elapse_done (ms : Nat) (s : State) : (elapse ms s).done = s.done := rfl
@[simp] theorem elapse_reject (ms : Nat) (s : State) : (elapse ms s).reject = s.reject := rfl
@[simp] theorem elapse_code (ms : Nat) (s : State) : (elapse ms s).code = s.code := rfl
@[simp] theorem elapse_detail (ms : Nat) (s : State) : (elapse ms s).detail = s.detail := rfl
@[simp] theorem elapse_result (ms : Nat) (s : State) : (elapse ms s).result = s.result := rfl
@[simp] theorem elapse_outLen (ms : Nat) (s : State) : (elapse ms s).outLen = s.outLen := rfl
@[simp] theorem elapse_out (ms : Nat) (s : State) : (elapse ms s).out = s.out := rfl
@[simp] theorem elapse_dbuf (ms : Nat) (s : State) : (elapse ms s).dbuf = s.dbuf := rfl
@[simp] theorem elapse_frame (ms : Nat) (s : State) : (elapse ms s).frame = s.frame := rfl
@[simp] theorem elapse_phase (ms : Nat) (s : State) : (elapse ms s).phase = s.phase := rfl
@[simp] theorem elapse_timer (ms : Nat) (s : State) : (elapse ms s).timer = s.timer := rfl
@[simp] theorem elapse_pending (ms : Nat) (s : State) : (elapse ms s).pending = s.pending := rfl
@[simp] theorem elapse_now (ms : Nat) (s : State) : (elapse ms s).now = s.now + ms := rfl
@[simp] theorem elapse_abandoned (ms : Nat) (s : State) : (elapse ms s).abandoned = s.abandoned := rfl
@[simp] theorem elapse_history (ms : Nat) (s : State) : (elapse ms s).history = s.history := rfl
@[simp] theorem elapse_schedule (ms : Nat) (s : State) : (elapse ms s).schedule = s.schedule := rfl

/-! `hostReset`: the BTF's fields at their reset values, the environment's as they were. -/

@[simp] theorem hostReset_cmd (s : State) : (hostReset s).cmd = State.reset.cmd := rfl
@[simp] theorem hostReset_busy (s : State) : (hostReset s).busy = State.reset.busy := rfl
@[simp] theorem hostReset_done (s : State) : (hostReset s).done = State.reset.done := rfl
@[simp] theorem hostReset_reject (s : State) : (hostReset s).reject = State.reset.reject := rfl
@[simp] theorem hostReset_code (s : State) : (hostReset s).code = State.reset.code := rfl
@[simp] theorem hostReset_detail (s : State) : (hostReset s).detail = State.reset.detail := rfl
@[simp] theorem hostReset_result (s : State) : (hostReset s).result = State.reset.result := rfl
@[simp] theorem hostReset_outLen (s : State) : (hostReset s).outLen = State.reset.outLen := rfl
@[simp] theorem hostReset_out (s : State) : (hostReset s).out = State.reset.out := rfl
@[simp] theorem hostReset_dbuf (s : State) : (hostReset s).dbuf = State.reset.dbuf := rfl
@[simp] theorem hostReset_frame (s : State) : (hostReset s).frame = State.reset.frame := rfl
@[simp] theorem hostReset_phase (s : State) : (hostReset s).phase = State.reset.phase := rfl
@[simp] theorem hostReset_timer (s : State) : (hostReset s).timer = State.reset.timer := rfl
@[simp] theorem hostReset_pending (s : State) : (hostReset s).pending = State.reset.pending := rfl
@[simp] theorem hostReset_now (s : State) : (hostReset s).now = s.now := rfl
@[simp] theorem hostReset_abandoned (s : State) : (hostReset s).abandoned = s.abandoned + (if s.pending.isSome then 1 else 0) := rfl
@[simp] theorem hostReset_history (s : State) : (hostReset s).history = s.history ++ [.host .reset] := rfl
@[simp] theorem hostReset_schedule (s : State) : (hostReset s).schedule = s.schedule := rfl

/-! The buffers by name. -/

@[simp] theorem memory_dbuf (s : State) : s.memory .dbuf = s.dbuf := rfl
@[simp] theorem memory_out (s : State) : s.memory .out = s.out := rfl
@[simp] theorem memory_frame (s : State) : s.memory .frame = s.frame := rfl

end Sys2Proof.Machine
end

