-- ==== Sys2Proof/Laws/Ops.lean ====
section
/-! SUPPORT. For each shared operation, once, what it can do. -/

namespace Sys2Proof.Machine

open Sys2Proof.Config

@[simp] theorem andThen_next {α β : Type} (a : α) (f : α → Attempt β) : andThen (.next a) f = f a := rfl
@[simp] theorem andThen_fault {α β : Type} (r : Fault) (f : α → Attempt β) :
    andThen (.fault r) f = .fault r := rfl
@[simp] theorem andThen_refused {α β : Type} (r : Refusal) (f : α → Attempt β) :
    andThen (.refused r) f = .refused r := rfl

/-- A sequence answers a value exactly when both parts do. -/
theorem andThen_eq_next {α β : Type} {o : Attempt α} {f : α → Attempt β} {b : β} :
    andThen o f = .next b ↔ ∃ a, o = .next a ∧ f a = .next b := by
  cases o <;> simp

/-- A buffer read answers exactly the byte that stands there. -/
theorem readBuf_eq_next {b : Buf} {i : Nat} {s : State} {v : Byte} :
    readBuf b i s = .next v ↔ Memory.read (s.memory b) i = some v := by
  unfold readBuf; split <;> simp_all

/-- A buffer read of an unwritten byte faults (R61). -/
theorem readBuf_unwritten {b : Buf} {i : Nat} {s : State} (h : Memory.read (s.memory b) i = none) :
    readBuf b i s = .fault (.unwritten b i) := by
  simp [readBuf, h]

/-- A range read answers exactly the bytes that stand there, all of them written. -/
theorem readRange_eq_next {b : Buf} {i n : Nat} {s : State} {bs : List Byte} :
    readRange b i n s = .next bs ↔ bs.length = n ∧ Holds (s.memory b) i bs := by
  induction n generalizing i bs with
  | zero =>
    simp only [readRange, Host.Outcome.next.injEq, List.length_eq_zero_iff]
    constructor
    · rintro rfl; exact ⟨rfl, fun k h => absurd h (by simp)⟩
    · rintro ⟨rfl, -⟩; rfl
  | succ n ih =>
    simp only [readRange, andThen_eq_next, readBuf_eq_next, ih, Host.Outcome.next.injEq]
    constructor
    · rintro ⟨v, hv, vs, ⟨hl, hh⟩, rfl⟩
      refine ⟨by simp [hl], fun k hk => ?_⟩
      cases k with
      | zero => simpa using hv
      | succ k => simpa [Nat.add_comm, Nat.add_left_comm] using hh k (by simpa using hk)
    · rintro ⟨hl, hh⟩
      match bs, hl with
      | v :: vs, hl =>
        refine ⟨v, hh 0 (Nat.succ_pos _), vs, ⟨by simpa using hl, fun k hk => ?_⟩, rfl⟩
        have := hh (k + 1) (by simpa using hk)
        simpa [Nat.add_comm, Nat.add_left_comm] using this

/-- A range read with an unwritten byte faults, naming the first one. -/
theorem readRange_unwritten {b : Buf} {i n : Nat} {s : State} (h : SomeUnwritten (s.memory b) i n) :
    ∃ k, k < n ∧ Memory.read (s.memory b) (i + k) = none ∧
      readRange b i n s = .fault (.unwritten b (i + k)) := by
  induction n generalizing i with
  | zero => obtain ⟨k, hk, -⟩ := h; omega
  | succ n ih =>
    obtain ⟨k, hk, hr⟩ := h
    cases h0 : Memory.read (s.memory b) i with
    | none => exact ⟨0, by omega, h0, by simp [readRange, readBuf_unwritten h0]⟩
    | some v =>
      have hne : k ≠ 0 := by rintro rfl; simp [h0] at hr
      obtain ⟨j, hj, hjr, hf⟩ := ih (i := i + 1) ⟨k - 1, by omega, by rw [← hr]; congr 1; omega⟩
      refine ⟨j + 1, by omega, by rw [← hjr]; congr 1; omega, ?_⟩
      rw [readRange, readBuf_eq_next.2 h0, andThen_next, hf, andThen_fault]
      congr 2; omega

/-- A range read answers bytes or faults. -/
theorem readRange_cases (b : Buf) (i n : Nat) (s : State) :
    (∃ bs, readRange b i n s = .next bs) ∨ ∃ k, readRange b i n s = .fault (.unwritten b k) := by
  induction n generalizing i with
  | zero => exact .inl ⟨_, rfl⟩
  | succ n ih =>
    simp only [readRange]
    cases h0 : Memory.read (s.memory b) i with
    | none => exact .inr ⟨i, by simp [readBuf_unwritten h0]⟩
    | some v =>
      rw [readBuf_eq_next.2 h0, andThen_next]
      rcases ih (i + 1) with ⟨bs, h⟩ | ⟨k, h⟩ <;> rw [h]
      · exact .inl ⟨_, rfl⟩
      · exact .inr ⟨k, rfl⟩

/-- What composeValue can do (R162). -/
theorem composeValueOf_cases {b : Buf} {f l : Nat} {s t : State} (h : composeValueOf b f l s = .next t) :
    (l ≤ f ∧ t = s.raise .order) ∨ (f < l ∧ 3 < l - f ∧ t = s.raise .span) ∨
    (f < l ∧ l - f ≤ 3 ∧ b.size ≤ l ∧ t = s.raise .beyond) ∨
    (f < l ∧ l - f ≤ 3 ∧ l < b.size ∧ ∃ bs : List Byte, bs.length = l - f + 1 ∧
      Holds (s.memory b) f bs ∧ t = s.completeWith (littleEndianValue bs)) := by
  unfold composeValueOf at h
  split_ifs at h with h1 h2 h3
  · exact .inl ⟨h1, by simpa using h.symm⟩
  · exact .inr (.inl ⟨by omega, h2, by simpa using h.symm⟩)
  · exact .inr (.inr (.inl ⟨by omega, by omega, h3, by simpa using h.symm⟩))
  · obtain ⟨bs, hb, ht⟩ := andThen_eq_next.1 h
    obtain ⟨hl, hh⟩ := readRange_eq_next.1 hb
    exact .inr (.inr (.inr ⟨by omega, by omega, by omega, bs, hl, hh, by simpa using ht.symm⟩))

/-- What COMPOSE_WORD can do once its indices are known (R161). -/
theorem composeWordOf_cases {b : Buf} {i j : Nat} {s t : State} (h : composeWordOf b i j s = .next t) :
    ((b.size ≤ i ∨ b.size ≤ j) ∧ t = s.raise .beyond) ∨
    (i < b.size ∧ j < b.size ∧ ∃ lo hi, Memory.read (s.memory b) i = some lo ∧
      Memory.read (s.memory b) j = some hi ∧ t = s.completeWith (composeBytes hi lo)) := by
  unfold composeWordOf at h
  split_ifs at h with h1
  · exact .inl ⟨h1, by simpa using h.symm⟩
  · obtain ⟨lo, hlo, h⟩ := andThen_eq_next.1 h
    obtain ⟨hi, hhi, h⟩ := andThen_eq_next.1 h
    rw [not_or, Nat.not_le, Nat.not_le] at h1
    exact .inr ⟨h1.1, h1.2, lo, hi, readBuf_eq_next.1 hlo, readBuf_eq_next.1 hhi, by simpa using h.symm⟩

/-- What receiving a 36-byte frame does (R227): FRAME takes it, and the verdict decides the rest. -/
theorem receiveFrame_cases (frame : List Byte) (s : State) :
    (validate frame = .valid ∧
      receiveFrame frame s = deliver frame { s with frame := s.frame.writeRange 0 frame }) ∨
    (validate frame = .badLength ∧
      receiveFrame frame s = State.raise .length { s with frame := s.frame.writeRange 0 frame }) ∨
    (validate frame = .sumZero ∧
      receiveFrame frame s = State.raise .sumZero { s with frame := s.frame.writeRange 0 frame }) := by
  unfold receiveFrame
  cases validate frame <;> simp

/-- What an answer to the pending request does: the reaction of the phase, on the state with the request
gone and the answer recorded (R92). -/
theorem busAnswer_eq_next {a : BusAnswer} {s t : State} :
    busAnswer a s = .next t ↔
      ∃ r, s.pending = some r ∧ react r a (State.observe (.answer a) { s with pending := none }) = .next t := by
  unfold busAnswer; split <;> simp_all

/-- What the reaction of a phase does. -/
theorem react_cases {r : BusReq} {a : BusAnswer} {s t : State} (h : react r a s = .next t) :
    (s.phase = .wCmd ∧ t = afterCommandWrite a s) ∨ (s.phase = .wPtr ∧ t = afterPointerWrite a s) ∨
    (s.phase = .rBlk ∧ t = afterBlockRead a s) ∨ (s.phase = .wPay ∧ t = afterPayloadWrite r.data a s) ∨
    (s.phase = .wTrl ∧ t = afterTrailerWrite a s) ∨ (s.phase = .wKey1 ∧ t = afterFirstKey a s) ∨
    (s.phase = .wKey2 ∧ t = afterSecondKey a s) := by
  unfold react at h
  cases hp : s.phase <;> simp [hp] at h <;> simp [h]

/-- What the discarded answer of an abandoned call does (R342). -/
theorem lateBusAnswer_eq_next {a : BusAnswer} {s t : State} :
    lateBusAnswer a s = .next t ↔
      ∃ n, s.abandoned = n + 1 ∧ t = State.observe (.lateAnswer a) { s with abandoned := n } := by
  unfold lateBusAnswer
  cases h : s.abandoned with
  | zero => simp
  | succ n =>
    simp only [Host.Outcome.next.injEq, Nat.add_right_cancel_iff, exists_eq_left']
    exact eq_comm

/-- What the sequencer's own step does (R330): it leaves SETTLE once the delay has passed, else waits. -/
theorem sequencerStep_cases (s : State) :
    (∃ t, s.phase = .settle ∧ s.timer = some t ∧ t.t0 + t.delay ≤ s.now ∧
      sequencerStep s = leaveSettle t s) ∨ sequencerStep s = s := by
  unfold sequencerStep
  split
  · next t hp ht =>
    split_ifs with h
    · exact .inl ⟨t, hp, ht, by simpa [delayPassed] using h, rfl⟩
    · exact .inr rfl
  · exact .inr rfl

/-- What leaving SETTLE does (R57). -/
theorem leaveSettle_cases (t : SettleTimer) (s : State) :
    (t.next = .pointerWrite ∧
      leaveSettle t s = (s.observe (.settleExit t.delay s.now)).issue .wPtr pointerWrite) ∨
    (t.next = .complete ∧ leaveSettle t s = (s.observe (.settleExit t.delay s.now)).raise .success) := by
  unfold leaveSettle
  cases t.next <;> simp

/-- What `IssueCmd` does (R42). -/
theorem issueCmd_cases (w : Word64) (s : State) :
    (s.busy = true ∧ issueCmd w s = .next (s.observe (.host (.issueCmd w))).dropWrite) ∨
    (s.busy = false ∧
      issueCmd w s = beginCommand (decode w) ((s.observe (.host (.issueCmd w))).accept w)) := by
  unfold issueCmd
  cases s.busy <;> simp

/-- What `WriteDbuf` does (R54). -/
theorem writeDbuf_eq_next {i : Nat} {v : Byte} {s t : State} :
    writeDbuf i v s = .next t ↔ i < 36 ∧
      ((s.busy = true ∧ t = (s.observe (.host (.writeDbuf i v))).dropWrite) ∨
       (s.busy = false ∧ t = { s.observe (.host (.writeDbuf i v)) with dbuf := s.dbuf.write i v })) := by
  unfold writeDbuf
  by_cases hi : dbufSize ≤ i
  · have : ¬i < 36 := by simp only [dbufSize] at hi; omega
    simp [hi, this]
  · have : i < 36 := by simp only [dbufSize] at hi; omega
    cases hb : s.busy <;> simp only [hi, this, if_false, if_true, true_and, Bool.false_eq_true,
      false_and, or_false, false_or, reduceCtorEq, Host.Outcome.next.injEq, observe_dbuf] <;> exact eq_comm

/-- What beginning a decoded word does (R140). -/
theorem beginCommand_eq_next {d : Decoded} {s t : State} :
    beginCommand d s = .next t ↔
      (∃ i, d = .command i ∧ exec i s = .next t) ∨ (d = .illegal .opcode ∧ t = s.raise .opcode) ∨
      (d = .illegal .reserved ∧ t = s.raise .reserved) := by
  unfold beginCommand
  split <;> simp [eq_comm]

/-- What a raw write access does (R41). -/
theorem windowWrite_eq_next {off : Nat} {data : List Byte} {s t : State} :
    windowWrite off data s = .next t ↔
      (∃ w, classifyWrite off data = .next (.issue w) ∧ issueCmd w s = .next t) ∨
      (∃ i v, classifyWrite off data = .next (.data i v) ∧ writeDbuf i v s = .next t) := by
  unfold windowWrite
  rw [andThen_eq_next]
  constructor
  · rintro ⟨w, h1, h2⟩
    cases w with
    | issue w => exact .inl ⟨w, h1, h2⟩
    | data i v => exact .inr ⟨i, v, h1, h2⟩
  · rintro (⟨w, h1, h2⟩ | ⟨i, v, h1, h2⟩)
    · exact ⟨_, h1, h2⟩
    · exact ⟨_, h1, h2⟩

/-- What a host action does (R32). -/
theorem hostStep_cases {a : HostAction} {s t : State} (h : hostStep a s = .next t) :
    (∃ w, issueCmd w s = .next t ∧ (a = .issueCmd w ∨ ∃ off data, a = .writeReg off data ∧
      classifyWrite off.toNat data = .next (.issue w))) ∨
    (∃ i v, writeDbuf i v s = .next t ∧ (a = .writeDbuf i v ∨ ∃ off data, a = .writeReg off data ∧
      classifyWrite off.toNat data = .next (.data i v))) ∨
    (a = .reset ∧ t = hostReset s) ∨
    (∃ off n bytes, a = .readReg off n ∧ readWindow off.toNat n s = .next bytes ∧
      t = s.observe (.hostRead off n bytes)) := by
  cases a with
  | issueCmd w => exact .inl ⟨w, h, .inl rfl⟩
  | writeDbuf i v => exact .inr (.inl ⟨i, v, h, .inl rfl⟩)
  | reset => exact .inr (.inr (.inl ⟨rfl, by simpa [hostStep] using h.symm⟩))
  | readReg off n =>
    obtain ⟨bytes, hb, ht⟩ := andThen_eq_next.1 h
    exact .inr (.inr (.inr ⟨off, n, bytes, rfl, hb, by simpa using ht.symm⟩))
  | writeReg off data =>
    rcases windowWrite_eq_next.1 h with ⟨w, hc, hi⟩ | ⟨i, v, hc, hw⟩
    · exact .inl ⟨w, hi, .inr ⟨off, data, rfl, hc⟩⟩
    · exact .inr (.inl ⟨i, v, hw, .inr ⟨off, data, rfl, hc⟩⟩)

/-- What a step does: the head of the schedule moves on the rest of it. -/
theorem step_cases {s t : State} (h : step s = .next t) :
    (s.schedule = [] ∧ t = s) ∨
    ∃ e rest, s.schedule = e :: rest ∧ agentStep e { s with schedule := rest } = .next t := by
  unfold step at h
  split at h
  · next hs => exact .inl ⟨hs, by simpa using h.symm⟩
  · next e rest hs => exact .inr ⟨e, rest, hs, h⟩

/-- A step with a move scheduled. -/
theorem step_cons {s : State} {e : Event} {rest : List Event} (h : s.schedule = e :: rest) :
    step s = agentStep e { s with schedule := rest } := by
  unfold step; rw [h]

/-- Bytes read as little-endian numbers: at most four compose exactly (R162). -/
theorem littleEndianValue_cons (b : Byte) (bs : List Byte) :
    littleEndianValue (b :: bs) = b.setWidth 32 ||| littleEndianValue bs <<< 8 := rfl

end Sys2Proof.Machine
end

