-- ==== Sys2Proof/Laws/PerInstr.lean ====
section
/-! SUPPORT. Facts about every command as syntax, one lemma per constructor: a command is spelled by its
own opcode and operand fields (spec 30_encoding.md R131, R132). -/

namespace Sys2Proof.Laws

/-- The opcode and the operand fields of a command spell that command. -/
def FieldsSpell.Statement (i : Instr) : Prop :=
  instrOfFields i.operandA i.operandB i.operandC i.op = i

theorem FieldsSpell.macRead (a : Half) : FieldsSpell.Statement (.macRead a) := rfl
theorem FieldsSpell.dfRead (a : Half) : FieldsSpell.Statement (.dfRead a) := rfl
theorem FieldsSpell.dfWrite (a b : Half) : FieldsSpell.Statement (.dfWrite a b) := rfl
theorem FieldsSpell.macCmd (a b : Half) : FieldsSpell.Statement (.macCmd a b) := rfl
theorem FieldsSpell.unsealKey (a b : Half) : FieldsSpell.Statement (.unsealKey a b) := rfl
theorem FieldsSpell.checksum (a : Half) : FieldsSpell.Statement (.checksum a) := rfl
theorem FieldsSpell.validate : FieldsSpell.Statement .validate := rfl
theorem FieldsSpell.addrCheck (a b c : Half) : FieldsSpell.Statement (.addrCheck a b c) := rfl
theorem FieldsSpell.sizeCheck (a : Half) : FieldsSpell.Statement (.sizeCheck a) := rfl
theorem FieldsSpell.composeWord (a b c : Half) : FieldsSpell.Statement (.composeWord a b c) := rfl
theorem FieldsSpell.composeValue (a b c : Half) : FieldsSpell.Statement (.composeValue a b c) := rfl
theorem FieldsSpell.composeDword (c : Half) : FieldsSpell.Statement (.composeDword c) := rfl

end Sys2Proof.Laws
end

