-- ==== Sys2Proof/Laws/Window.lean ====
section
/-! SUPPORT. What the host window's accesses can do: a read answers the table of spec 10_state.md R41 byte
by byte, and a raw write is one of the two host writes. -/

namespace Sys2Proof.Machine

/-! ## Reads -/

/-- Byte `k` of a register is byte `k` of its number (R34). -/
theorem registerByte_eq_byteOf {n : Nat} (v : BitVec n) (k : Nat) : registerByte v k = byteOf v.toNat k := by
  apply BitVec.eq_of_toNat_eq
  simp [registerByte, byteOf, Nat.shiftRight_eq_div_pow, Nat.pow_mul]

/-- A bit of a byte of a command word. -/
theorem getLsbD_byteOf (w : Word64) (k : Nat) {i : Nat} (hi : i < 8) :
    (byteOf w.toNat k).getLsbD i = w.getLsbD (8 * k + i) := by
  rw [← registerByte_eq_byteOf, registerByte, BitVec.getLsbD_extractLsb', decide_eq_true hi, Bool.true_and]

/-- The table has a byte at an offset exactly when the cell there reads as it. -/
theorem windowByte_eq_some {s : State} {off : Nat} {v : Byte} :
    windowByte s off = some v ↔ ∃ c, windowCell off = some c ∧ readCell c s = .next v := by
  unfold windowByte windowCell
  split_ifs <;> first | omega | simp [readCell, registerByte_eq_byteOf, readBuf_eq_next, State.memory]

/-- The table has no byte at an offset exactly when it is reserved or an unwritten buffer byte. -/
theorem windowByte_eq_none {s : State} {off : Nat} :
    windowByte s off = none ↔ windowCell off = none ∨
      ∃ b i, windowCell off = some (.buffer b i) ∧ Memory.read (s.memory b) i = none := by
  unfold windowByte windowCell
  split_ifs <;> first | omega | simp [State.memory]

/-- An offset of R41's table is one the window decodes. -/
theorem windowCell_isSome {off : Nat} : (windowCell off).isSome ↔ Mapped off := by
  unfold windowCell Mapped
  split_ifs <;> simp <;> omega

/-- Where a buffer's bytes stand in the window. -/
theorem windowCell_buffer {off i : Nat} {b : Buf} (h : windowCell off = some (.buffer b i)) :
    ∃ base, (b, base) ∈ [(Buf.out, 0x20), (Buf.dbuf, 0x40), (Buf.frame, 0x80)] ∧ off = base + i := by
  unfold windowCell at h
  split_ifs at h <;> simp at h <;> obtain ⟨rfl, rfl⟩ := h
  · exact ⟨0x20, by simp, by omega⟩
  · exact ⟨0x40, by simp, by omega⟩
  · exact ⟨0x80, by simp, by omega⟩

/-- An access of mapped offsets meets no reserved one. -/
theorem firstReserved_eq_none {off n : Nat} (h : ∀ k, k < n → (windowCell (off + k)).isSome) :
    firstReserved off n = none := by
  induction n generalizing off with
  | zero => rfl
  | succ n ih =>
    have h0 : (windowCell off).isSome := h 0 (Nat.succ_pos n)
    rw [firstReserved, if_pos h0]
    exact ih fun k hk => by rw [Nat.add_right_comm]; exact h (k + 1) (Nat.succ_lt_succ hk)

/-- Offsets that all hold a byte are read in order. -/
theorem readCells_eq_next {s : State} {off : Nat} {bytes : List Byte}
    (h : ∀ k, (hk : k < bytes.length) → windowByte s (off + k) = some bytes[k]) :
    readCells off bytes.length s = .next bytes := by
  induction bytes generalizing off with
  | nil => rfl
  | cons v vs ih =>
    obtain ⟨c, hc, hv⟩ := windowByte_eq_some.1 (show windowByte s off = some v from h 0 (Nat.succ_pos _))
    have hvs := ih (off := off + 1) fun k hk => by
      rw [Nat.add_right_comm]; exact h (k + 1) (Nat.succ_lt_succ hk)
    simp [readCells, hc, hv, hvs]

/-- Mapped offsets of which one has no byte: the read faults, naming an unwritten byte among them. -/
theorem readCells_unwritten {s : State} {off n k : Nat} (hm : ∀ j, j < n → (windowCell (off + j)).isSome)
    (hk : k < n) (hn : windowByte s (off + k) = none) :
    ∃ j b i, j < n ∧ windowCell (off + j) = some (.buffer b i) ∧ Memory.read (s.memory b) i = none ∧
      readCells off n s = .fault (.unwritten b i) := by
  induction n generalizing off k with
  | zero => exact absurd hk (Nat.not_lt_zero k)
  | succ n ih =>
    obtain ⟨c, hc⟩ := Option.isSome_iff_exists.1 (show (windowCell off).isSome from hm 0 (Nat.succ_pos n))
    cases hb : windowByte s off with
    | none =>
      rcases windowByte_eq_none.1 hb with h | ⟨b, i, h, hr⟩
      · simp [h] at hc
      · refine ⟨0, b, i, Nat.succ_pos n, h, hr, ?_⟩
        simp [readCells, h, readCell, readBuf_unwritten hr]
    | some v =>
      obtain ⟨c', hc', hv⟩ := windowByte_eq_some.1 hb
      obtain ⟨m, rfl⟩ : ∃ m, k = m + 1 := Nat.exists_eq_succ_of_ne_zero (by rintro rfl; simp [hb] at hn)
      obtain ⟨j, b, i, hj, h, hr, hf⟩ := ih (off := off + 1) (k := m)
        (fun j hj => by rw [Nat.add_right_comm]; exact hm (j + 1) (Nat.succ_lt_succ hj))
        (Nat.lt_of_succ_lt_succ hk) (by rw [Nat.add_right_comm]; exact hn)
      refine ⟨j + 1, b, i, Nat.succ_lt_succ hj, by rw [Nat.add_right_comm] at h; exact h, hr, ?_⟩
      simp [readCells, hc', hv, hf]

/-- A host read of offsets that all hold a byte answers the window's bytes. -/
theorem readWindow_eq_next {s : State} {off : Nat} {bytes : List Byte}
    (h : ∀ k, (hk : k < bytes.length) → windowByte s (off + k) = some bytes[k]) :
    readWindow off bytes.length s = .next bytes := by
  have hm : ∀ k, k < bytes.length → (windowCell (off + k)).isSome := fun k hk => by
    obtain ⟨c, hc, -⟩ := windowByte_eq_some.1 (h k hk); simp [hc]
  rw [readWindow, firstReserved_eq_none hm]
  exact readCells_eq_next h

/-! ## Writes -/

/-- A bit of a word read from bytes is a bit of one of them. -/
theorem getLsbD_wordOfBytes (bs : List Byte) {i : Nat} (hi : i < 64) :
    (wordOfBytes bs).getLsbD i = (bs.getD (i / 8) 0#8).getLsbD (i % 8) := by
  induction bs generalizing i with
  | nil => simp [wordOfBytes]
  | cons b bs ih =>
    rw [wordOfBytes, BitVec.getLsbD_or, BitVec.getLsbD_setWidth, BitVec.getLsbD_shiftLeft]
    by_cases h8 : i < 8
    · simp [h8, hi, Nat.div_eq_of_lt h8, Nat.mod_eq_of_lt h8]
    · have hd : i / 8 = (i - 8) / 8 + 1 := by omega
      have hr : i % 8 = (i - 8) % 8 := by omega
      simp only [hi, decide_true, Bool.true_and, h8, decide_false, Bool.not_false,
        BitVec.getLsbD_of_ge b i (by omega), Bool.false_or, ih (i := i - 8) (by omega), hd, hr,
        List.getD_cons_succ]

/-- The eight bytes of a command word are that word (R34). -/
@[simp] theorem wordOfBytes_cmdBytes (w : Word64) : wordOfBytes (cmdBytes w) = w := by
  apply BitVec.eq_of_getLsbD_eq
  intro i hi
  have h : (cmdBytes w).getD (i / 8) 0#8 = byteOf w.toNat (i / 8) := by
    have : i / 8 < 8 := by omega
    simp [cmdBytes, this]
  rw [getLsbD_wordOfBytes _ hi, h, getLsbD_byteOf w _ (Nat.mod_lt i (by decide)), Nat.div_add_mod]

/-- The bytes of a word are its eight bytes again. -/
theorem cmdBytes_wordOfBytes {data : List Byte} (h : data.length = 8) : cmdBytes (wordOfBytes data) = data := by
  apply List.ext_getElem
  · simp [cmdBytes, h]
  · intro k hk hd
    have hk8 : k < 8 := by omega
    apply BitVec.eq_of_getLsbD_eq
    intro i hi
    have hdiv : (8 * k + i) / 8 = k := by omega
    have hmod : (8 * k + i) % 8 = i := by omega
    simp only [cmdBytes, List.getElem_map, List.getElem_range]
    rw [getLsbD_byteOf _ _ hi, getLsbD_wordOfBytes _ (by omega), hdiv, hmod]
    simp [List.getD_eq_getElem?_getD, hd]

/-- The 8-byte write of a command word to CMD issues it (R42). -/
@[simp] theorem classifyWrite_cmdBytes (w : Word64) :
    classifyWrite 0 (cmdBytes w) = .next (.issue w) := by
  have hl : (cmdBytes w).length = 8 := by simp [cmdBytes]
  have hr : firstReserved 0 (cmdBytes w).length = none := by rw [hl]; decide
  have hne : cmdBytes w ≠ [] := fun h => by simp [h] at hl
  unfold classifyWrite
  rw [hr]
  split <;> simp_all [windowCell]

/-- A byte write at an offset of DBUF writes that byte (R54). -/
theorem classifyWrite_dbuf {off i : Nat} (v : Byte) (ho : off = 0x40 + i) (hi : i < 36) :
    classifyWrite off [v] = .next (.data i v) := by
  have hc : windowCell off = some (.buffer .dbuf i) := by
    subst ho; unfold windowCell
    split_ifs <;> first | omega | simp
  simp [classifyWrite, firstReserved, hc]

/-- A write access that issues a word is the 8-byte write of it to CMD. -/
theorem classifyWrite_eq_issue {off : Nat} {data : List Byte} {w : Word64}
    (h : classifyWrite off data = .next (.issue w)) : off = 0 ∧ data = cmdBytes w := by
  unfold classifyWrite at h
  split at h
  · simp at h
  split at h
  case h_4 data _ _ hc _ _ =>
    split_ifs at h with hl
    have hw : wordOfBytes data = w := by simpa using h
    refine ⟨?_, by rw [← hw, cmdBytes_wordOfBytes hl]⟩
    unfold windowCell at hc
    split_ifs at hc <;> simp at hc
    exact hc
  all_goals simp at h

/-- A write access that writes DBUF is a byte write at that byte's offset. -/
theorem classifyWrite_eq_data {off i : Nat} {data : List Byte} {v : Byte}
    (h : classifyWrite off data = .next (.data i v)) : off = 0x40 + i ∧ i < 36 ∧ data = [v] := by
  unfold classifyWrite at h
  split at h
  · simp at h
  split at h
  case h_2 hc _ =>
    simp only [Host.Outcome.next.injEq, WindowWrite.data.injEq] at h
    obtain ⟨rfl, rfl⟩ := h
    unfold windowCell at hc
    split_ifs at hc <;> simp at hc
    exact ⟨by omega, by omega, rfl⟩
  case h_4 => split_ifs at h; simp at h
  all_goals simp at h

/-- A step whose next move issues a word is that `IssueCmd` (R42). -/
theorem step_issueNext {s : State} {w : Word64} {rest : List Event} (h : IssueNext s w rest) :
    step s = issueCmd w { s with schedule := rest } := by
  rcases h with h | h <;> rw [step_cons h]
  · rfl
  · simp [agentStep, hostStep, windowWrite]

/-- A step whose next move writes a byte of DBUF is that `WriteDbuf` (R54). -/
theorem step_writeNext {s : State} {i : Nat} {v : Byte} {rest : List Event} (h : WriteNext s i v rest)
    (hi : i < 36) : step s = writeDbuf i v { s with schedule := rest } := by
  rcases h with h | ⟨off, ho, h⟩ <;> rw [step_cons h]
  · rfl
  · simp [agentStep, hostStep, windowWrite, classifyWrite_dbuf v ho hi]

end Sys2Proof.Machine
end

