-- ==== Sys2Proof/Tests/Slice0.lean ====
section
/-! SUPPORT. Tests: ill-formed commands, words written out from spec 30_encoding.md R132, one-step checks
with the expected values of spec 95_test_vectors.md (W.. and V..), and for every obligation with
hypotheses a witness that meets them. -/

open Sys2Proof Sys2Proof.Machine

namespace Sys2Proof.Tests

/-! ## WellFormed: each check refuses a term, and its word is illegal. -/

/-- R270: class field B[15:2] (V75). -/
theorem test_illformed_class : (Instr.macCmd 0x0041#16 4#16).wellFormed = false ∧
    decode (encode (.macCmd 0x0041#16 4#16)) = .illegal .reserved := by decide
/-- R131: flag field B of COMPOSE_WORD (V18). -/
theorem test_illformed_order : (Instr.composeWord 0#16 3#16 0#16).wellFormed = false ∧
    decode (encode (.composeWord 0#16 3#16 0#16)) = .illegal .reserved := by decide
/-- R131: BSEL of COMPOSE_WORD (V20). -/
theorem test_illformed_word_bsel : (Instr.composeWord 0#16 1#16 2#16).wellFormed = false ∧
    decode (encode (.composeWord 0#16 1#16 2#16)) = .illegal .reserved := by decide
theorem test_illformed_value_bsel : (Instr.composeValue 0#16 3#16 0x8000#16).wellFormed = false ∧
    decode (encode (.composeValue 0#16 3#16 0x8000#16)) = .illegal .reserved := by decide
theorem test_illformed_dword_bsel : (Instr.composeDword 2#16).wellFormed = false ∧
    decode (encode (.composeDword 2#16)) = .illegal .reserved := by decide

/-! ## Decode: a word of every opcode, written out from R130 and R132. -/

theorem test_decode_mac_read : decode 0x0000000000010001#64 = .command (.macRead 1#16) := by decide
theorem test_decode_df_read : decode 0x00000000462A0002#64 = .command (.dfRead 0x462A#16) := by decide
theorem test_decode_df_write :
    decode 0x00000002462A0003#64 = .command (.dfWrite 0x462A#16 2#16) := by decide
theorem test_decode_mac_cmd : decode 0x0000000300290004#64 = .command (.macCmd 0x29#16 3#16) := by decide
theorem test_decode_unseal :
    decode 0x0000567812340005#64 = .command (.unsealKey 0x1234#16 0x5678#16) := by decide
theorem test_decode_checksum : decode 0x0000000000240010#64 = .command (.checksum 36#16) := by decide
theorem test_decode_validate : decode 0x0000000000000011#64 = .command .validate := by decide
theorem test_decode_addr_check :
    decode 0x5FFF400060000018#64 = .command (.addrCheck 0x6000#16 0x4000#16 0x5FFF#16) := by decide
theorem test_decode_size_check : decode 0x0000000000210019#64 = .command (.sizeCheck 33#16) := by decide
theorem test_decode_compose_word :
    decode 0x00010001001F0020#64 = .command (.composeWord 31#16 1#16 1#16) := by decide
theorem test_decode_compose_value :
    decode 0x0001001F001C0021#64 = .command (.composeValue 28#16 31#16 1#16) := by decide
theorem test_decode_compose_dword : decode 0x0001000000000022#64 = .command (.composeDword 1#16) := by
  decide

/-- V70, V72, V73, V77, V78: no such opcode, which wins over a reserved bit. -/
theorem test_illegal_opcodes : [0x0000000000000000#64, 0x0000000000000012#64, 0x00000000000000FF#64,
    0x0000000000000006#64, 0x0000FFFF0000FF12#64].all (decode · == .illegal .opcode) = true := by decide
/-- V71, V74, V76, V19, V44, V62: a reserved bit. -/
theorem test_illegal_reserved : [0x0000000000000101#64, 0x0000000100010001#64, 0x0001000060000003#64,
    0x0000000000010022#64, 0x0000000000010011#64, 0x0000000100010019#64].all
    (decode · == .illegal .reserved) = true := by decide
theorem test_decode_table_word : decodeTableWord 64 0x0000000000040010 = some (.checksum 4#16) := by decide

/-! ## One step of each command. -/

/-- The answer is a next state of which `p` holds. -/
def nextAnd (o : Attempt State) (p : State → Bool) : Bool :=
  match o with
  | .next t => p t
  | _ => false

/-- After reset, with these bytes written to DBUF from index 0 on. -/
def filled (bytes : List Byte) : State := { State.reset with dbuf := Memory.writeRange [] 0 bytes }

/-- Frame DT of spec 95 section 2.2 without its last two bytes. -/
def deviceType : List Byte := [0x01#8, 0x00#8, 0x10#8, 0x26#8] ++ List.replicate 30 0#8

/-- A step that issues `w` leaves this STATUS and RESULT. -/
def leaves (s : State) (w : Word64) (status result : Word32) : Bool :=
  nextAnd (step (s.withNextCommand w)) fun t => statusWord t == status && t.result == result

/-- A step that issues `w` leaves this STATUS, with this request pending. -/
def asks (s : State) (w : Word64) (status : Word32) (r : BusReq) : Bool :=
  nextAnd (step (s.withNextCommand w)) fun t => statusWord t == status && t.pending == some r

/-- The step taken from `s` when `e` comes next. -/
def stepOf (e : Event) (s : State) : Attempt State := step { s with schedule := [e] }

/-- A command word has been accepted and runs in a phase with a request pending. -/
def running (w : Word64) (p : Phase) (r : BusReq) : State :=
  { State.reset with cmd := w, busy := true, phase := p, pending := some r }

/-- A command word has been accepted and waits in SETTLE since 0 ms. -/
def settling (w : Word64) (d : Nat) (next : AfterSettle) : State :=
  { State.reset with cmd := w, busy := true, phase := .settle, timer := some ⟨0, d, next⟩ }

/-- The four bytes of spec 95 section 2.1. -/
def four : State := filled [0x11#8, 0x22#8, 0x33#8, 0x44#8]

/-- V80, V130. -/
theorem test_mac_read_begins : asks State.reset 0x0000000000010001#64 0x00010001#32
    (.write 0x3E#8 [0x01#8, 0x00#8]) = true := by decide
/-- W5: payload, length and FRAME of the device-type frame. -/
theorem test_mac_read_delivers :
    nextAnd (stepOf (.answer (.ok (deviceType ++ [0xC8#8, 0x06#8])))
      (running 0x0000000000010001#64 .rBlk (.read 36#8))) (fun t =>
        statusWord t == 0x00000002#32 && t.outLen == 2#8 && t.out == [(0, 0x10#8), (1, 0x26#8)] &&
        Memory.read t.frame 34 == some 0xC8#8) = true := by decide
/-- V91: an echo of 0x0009 is delivered all the same. -/
theorem test_echo_not_compared :
    let frame := [0x09#8, 0x00#8, 0x10#8, 0x26#8] ++ List.replicate 30 0#8 ++ [0xC0#8, 0x06#8]
    echoedAddress frame = 0x0009#16 ∧
    nextAnd (stepOf (.answer (.ok frame)) (running 0x0000000000010001#64 .rBlk (.read 36#8)))
      (fun t => statusWord t == 0x00000002#32 && t.out == [(0, 0x10#8), (1, 0x26#8)]) = true := by decide
/-- V96. -/
theorem test_df_read_begins : asks State.reset 0x0000000040000002#64 0x00010001#32
    (.write 0x3E#8 [0x00#8, 0x40#8]) = true := by decide
/-- V94, V95. -/
theorem test_df_read_gate : (leaves State.reset 0x000000003FFF0002#64 0x00000112#32 0#32 &&
    leaves State.reset 0x0000000060000002#64 0x00000112#32 0#32) = true := by decide
/-- W6: the payload write. -/
theorem test_df_write_begins : asks (filled [0x64#8, 0x00#8]) 0x00000002462A0003#64 0x00050001#32
    (.write 0x3E#8 [0x2A#8, 0x46#8, 0x64#8, 0x00#8]) = true := by decide
/-- W6: the trailer write. -/
theorem test_df_write_trailer :
    nextAnd (stepOf (.answer (.ok [])) (running 0x00000002462A0003#64 .wPay
      (.write 0x3E#8 [0x2A#8, 0x46#8, 0x64#8, 0x00#8]))) (fun t =>
        t.pending == some (.write 0x60#8 [0x2B#8, 0x06#8])) = true := by decide
/-- V110. -/
theorem test_mac_cmd_begins : asks State.reset 0x0000000000410004#64 0x00010001#32
    (.write 0x3E#8 [0x41#8, 0x00#8]) = true := by decide
/-- V113: class 3 waits 1000 ms and completes. -/
theorem test_mac_cmd_settles :
    nextAnd (stepOf (.answer (.ok [])) (running 0x0000000300290004#64 .wCmd
      (.write 0x3E#8 [0x29#8, 0x00#8]))) (fun t =>
        statusWord t == 0x00020001#32 && t.timer == some ⟨0, 1000, .complete⟩) = true := by decide
/-- V120. -/
theorem test_unseal_begins : asks State.reset 0x0000567812340005#64 0x00070001#32
    (.write 0x3E#8 [0x34#8, 0x12#8]) = true := by decide
/-- V120: the second key word. -/
theorem test_unseal_second_key :
    nextAnd (stepOf (.answer (.ok [])) (running 0x0000567812340005#64 .wKey1
      (.write 0x3E#8 [0x34#8, 0x12#8]))) (fun t =>
        t.pending == some (.write 0x3E#8 [0x78#8, 0x56#8])) = true := by decide
/-- W3, V33. -/
theorem test_checksum : (leaves four 0x0000000000040010#64 0x00000002#32 0x00000055#32 &&
    leaves four 0x0000000000250010#64 0x00000242#32 0#32) = true := by decide
/-- V32: no byte is read. -/
theorem test_checksum_empty : leaves State.reset 0x0000000000000010#64 0x00000002#32 0x000000FF#32 = true := by
  decide
/-- V35. -/
theorem test_validate : leaves (filled (deviceType ++ [0xC8#8, 0x06#8])) 0x0000000000000011#64
    0x00000002#32 0x0000FF03#32 = true := by decide
/-- V37, V39: the rejected checksum byte, and a length byte out of range. -/
theorem test_validate_bad : (leaves (filled (deviceType ++ [0xC9#8, 0x06#8])) 0x0000000000000011#64
      0x00000002#32 0x00000002#32 &&
    leaves (filled (deviceType ++ [0xC8#8, 0x25#8])) 0x0000000000000011#64 0x00000002#32 0#32) = true := by
  decide
/-- V52, V53. -/
theorem test_addr_check : (leaves State.reset 0x5FFF40005FFF0018#64 0x00000002#32 1#32 &&
    leaves State.reset 0x5FFF400060000018#64 0x00000002#32 0#32) = true := by decide
/-- V59, V60. -/
theorem test_size_check : (leaves State.reset 0x0000000000200019#64 0x00000002#32 1#32 &&
    leaves State.reset 0x0000000000210019#64 0x00000002#32 0#32) = true := by decide
/-- V1, V2, V6. -/
theorem test_compose_word : (leaves four 0x0000000100000020#64 0x00000002#32 0x00002211#32 &&
    leaves four 0x0000000000010020#64 0x00000002#32 0x00001122#32 &&
    leaves four 0x0000000000240020#64 0x00000242#32 0#32) = true := by decide
/-- V4, V5. -/
theorem test_compose_word_errors : (leaves four 0x0000000000000020#64 0x00000142#32 0#32 &&
    leaves four 0x0000000100230020#64 0x00000242#32 0#32) = true := by decide
/-- V9. -/
theorem test_compose_value : leaves four 0x0000000200010021#64 0x00000002#32 0x00003322#32 = true := by
  decide
/-- V11, V14, V15. -/
theorem test_compose_value_errors : (leaves four 0x0000000200020021#64 0x00000342#32 0#32 &&
    leaves four 0x0000FFFF00000021#64 0x00000442#32 0#32 &&
    leaves four 0x0000002400220021#64 0x00000242#32 0#32) = true := by decide
/-- V16. -/
theorem test_compose_dword : leaves four 0x0000000000000022#64 0x00000002#32 0x44332211#32 = true := by
  decide
/-- V17: DBUF[4] is unwritten. -/
theorem test_compose_word_unwritten :
    exec (.composeWord 3#16 1#16 0#16) four = .fault (.unwritten .dbuf 4) := by rfl
/-- V131: a write while busy is dropped and flagged. -/
theorem test_busy_write_dropped :
    nextAnd (stepOf (.host (.writeDbuf 0 0x77#8)) (settling 0x0000000000010001#64 5 .pointerWrite))
      (fun t => statusWord t == 0x00020005#32 && t.dbuf == []) = true := by decide
/-- A raw 8-byte write at offset 0, low byte first, issues the word (R34, R42); one of 7 bytes does not. -/
theorem test_raw_cmd_write :
    nextAnd (stepOf (.host (.writeReg 0#8 [0x19#8, 0#8, 1#8, 0#8, 0#8, 0#8, 0#8, 0#8])) State.reset)
      (fun t => t.cmd == 0x0000000000010019#64 && t.result == 1#32) = true ∧
    stepOf (.host (.writeReg 0#8 (List.replicate 7 0#8))) State.reset = .refused (.partialCmdWrite 0) :=
  ⟨by decide, rfl⟩
/-- The step after `withFetchWord` runs that command. -/
theorem test_fetch_word : nextAnd (step (State.reset.withFetchWord 64 0x5FFF400040000018))
    (fun t => t.cmd == 0x5FFF400040000018#64 && t.result == 1#32) = true := by decide

/-- R145 and R155: `DF_WRITE_STRING 0x4100, "ABC"` is V108; 32 characters are refused. -/
theorem test_assembler_string :
    ((dfWriteString 0x4100#16 [0x41#8, 0x42#8, 0x43#8]).map fun h => h.expansion.flatMap AsmLine.actions) =
      some [.writeDbuf 0 3#8, .writeDbuf 1 0x41#8, .writeDbuf 2 0x42#8, .writeDbuf 3 0x43#8,
        .issueCmd 0x0000000441000003#64, .readReg 0x08#8 4] ∧
    (dfWriteString 0x4100#16 (List.replicate 32 0#8)).isNone = true := by decide
/-- A DF_READ that failed with CHECKSUM_ERROR over a stale payload `10 26`, and the state after a
COMPOSE_WORD of that payload with OK. -/
def failedRead : State :=
  { State.reset with
    done := true, code := .checksumError, detail := 2#8, outLen := 2#8, out := [(0, 0x10#8), (1, 0x26#8)] }
def composed : State := { failedRead with code := .ok, detail := 0#8, result := 0x2610#32 }
/-- R151: DF_READ_WORD yields no stale word after a failed read, and the word after a good one (W5). -/
theorem test_helper_stops : (dfReadWord 0x462A#16).move State.reset [failedRead, composed] = .failed ∧
    (dfReadWord 0x462A#16).move State.reset [{ failedRead with code := .ok }, composed] =
      .value 0x2610#16 := by decide
/-- R145: `COMPOSE_WORD 0, le, out` and omitted trailing operands. -/
theorem test_assembler_lines :
    (assemble .composeWord [.num 0#16, .le, .out]).map encode = some 0x0001000100000020#64 ∧
    (assemble .macCmd [.num 0x41#16, .reset]).map encode = some 0x0000000100410004#64 ∧
    (assemble .composeDword []).map encode = some 0x0000000000000022#64 ∧
    assemble .validate [.num 1#16] = none := by decide

/-! ## Witnesses: concrete values that meet the hypotheses of each obligation, clause by clause. -/

/-- A move next in an idle machine after reset. -/
def idle (e : Event) : State := { State.reset with schedule := [e] }

/-- A machine with a command running in W_CMD, and a move next. -/
def busyWith (e : Event) : State :=
  { running 0x0000000000010001#64 .wCmd (.write 0x3E#8 [1#8, 0#8]) with schedule := [e] }

/-- A step of `s` answers a next state. -/
def goesOn (s : State) : Bool := nextAnd (step s) fun _ => true

theorem goesOn_iff {s : State} : goesOn s = true ↔ ∃ t, step s = .next t := by
  unfold goesOn nextAnd; split <;> simp_all

/-- The written bytes are held. -/
theorem filled_holds (bytes : List Byte) : Holds (filled bytes).dbuf 0 bytes := holds_writeRange [] 0 bytes

theorem witness_DecodeEncodeAgree : (Instr.composeWord 0xFFFF#16 1#16 1#16).wellFormed = true ∧
    (Instr.macCmd 0xFFFF#16 3#16).wellFormed = true := by decide
theorem witness_IllegalWordReasons : decode 0x12#64 = .illegal .opcode ∧
    decode 0x0000000400410004#64 = .illegal .reserved := by decide
theorem witness_HostResetRestoresAll : (idle (.host .reset)).schedule = .host .reset :: [] ∧
    ∃ t, step { busyWith (.host .reset) with reject := true } = .next t ∧ t.reject = false :=
  ⟨rfl, _, rfl, rfl⟩
theorem witness_IssueCmdAcceptsOrDrops : (idle (.host (.issueCmd 0x22#64))).busy = false ∧
    (busyWith (.host (.issueCmd 0x22#64))).busy = true ∧
    IssueNext (idle (.host (.writeReg 0#8 (cmdBytes 0x22#64)))) 0x22#64 [] ∧
    nextAnd (step (idle (.host (.writeReg 0#8 (cmdBytes 0x12#64))))) (fun t => t.cmd != 0#64) = true :=
  ⟨rfl, rfl, .inr rfl, by decide⟩
theorem witness_StepRunsDecodedCommand : (idle (.host (.issueCmd 0x0000000000200019#64))).busy = false ∧
    decode 0x0000000000200019#64 = .command (.sizeCheck 32#16) := by decide
theorem witness_IllegalCommandEndsAtOnce : (idle (.host (.issueCmd 0x101#64))).busy = false ∧
    decode 0x101#64 = .illegal .reserved ∧ decode 0#64 = .illegal .opcode := by decide
theorem witness_WriteDbufSetsOneByte : (idle (.host (.writeDbuf 35 7#8))).busy = false ∧ 35 < 36 ∧
    WriteNext (idle (.host (.writeReg 0x63#8 [7#8]))) 35 7#8 [] ∧
    WriteNext (busyWith (.host (.writeReg 0x40#8 [7#8]))) 0 7#8 [] ∧
    (busyWith (.host (.writeDbuf 0 7#8))).busy = true :=
  ⟨rfl, by decide, .inr ⟨_, rfl, rfl⟩, .inr ⟨_, rfl, rfl⟩, rfl⟩
theorem witness_HostReadChangesNothing : goesOn (idle (.host (.readReg 0x00#8 17))) = true := by decide
theorem witness_StatusReadsLittleEndian :
    (idle (.host (.readReg 0x08#8 4))).schedule = .host (.readReg 0x08#8 4) :: [] := rfl
/-- A read across RESULT and OUT_LEN while busy, and the last written byte of each buffer. -/
theorem witness_HostReadsAnswerTheWindow :
    (∀ k, (h : k < [0x44#8, 0x33#8, 0x22#8, 0x11#8, 2#8].length) →
      windowByte { busyWith .sequencer with result := 0x11223344#32, outLen := 2#8 } (0x0C + k) =
        some [0x44#8, 0x33#8, 0x22#8, 0x11#8, 2#8][k]) ∧
    windowByte { State.reset with out := [(31, 7#8)] } 0x3F = some 7#8 ∧
    windowByte { State.reset with dbuf := [(35, 7#8)] } 0x63 = some 7#8 ∧
    windowByte { State.reset with frame := [(35, 7#8)] } 0xA3 = some 7#8 :=
  ⟨fun k h => by
    have : k < 5 := h
    interval_cases k <;> rfl, rfl, rfl, rfl⟩
/-- The boundary offsets of the reserved and the read-only ranges, and a short CMD write. -/
theorem witness_RefusedHostAccesses :
    ([0x11, 0x1F, 0x64, 0x7F, 0xA4, 0xFF].all fun off =>
      !goesOn (idle (.host (.readReg (BitVec.ofNat 8 off) 1))) &&
      !goesOn (idle (.host (.writeReg (BitVec.ofNat 8 off) [0#8])))) = true ∧
    ([0x00, 0x07, 0x08, 0x10, 0x20, 0x3F, 0x80, 0xA3].all fun off =>
      !goesOn (idle (.host (.writeReg (BitVec.ofNat 8 off) [0#8])))) = true := by decide
/-- After reset no byte is written: every clause, the last bytes of each buffer among them; and frame DT's
length byte with nothing else written. -/
theorem witness_UnwrittenBytesFault :
    (∀ b, SomeUnwritten (State.reset.memory b) 31 1) ∧ SomeUnwritten (State.reset.memory .dbuf) 35 1 ∧
    ((∀ j, j < 68 → Mapped ((0x20#8).toNat + j)) ∧
      windowByte { State.reset with out := Memory.writeRange [] 0 (List.replicate 32 0#8) }
        ((0x20#8).toNat + 67) = none) ∧
    Memory.read State.reset.dbuf 35 = none ∧ SomeUnwritten State.reset.dbuf 0 36 ∧
    (Memory.read { State.reset with dbuf := [(35, 6#8)] }.dbuf 35 = some 6#8 ∧
      Memory.read { State.reset with dbuf := [(35, 6#8)] }.dbuf 34 = none) ∧
    SomeUnwritten State.reset.dbuf 0 32 ∧ SomeUnwritten (State.reset.memory .out) 0 4 ∧
    SomeUnwritten (State.reset.memory .out) 28 4 ∧ Memory.read State.reset.out 31 = none :=
  ⟨fun b => ⟨0, by decide, by cases b <;> rfl⟩, ⟨0, by decide, rfl⟩,
    ⟨fun j hj => .inr (.inl ⟨Nat.le_add_right _ j, Nat.add_lt_add_left hj 0x20⟩), rfl⟩, rfl, ⟨0, by decide, rfl⟩,
    by decide, ⟨0, by decide, rfl⟩, ⟨0, by decide, rfl⟩, ⟨0, by decide, rfl⟩, rfl⟩

theorem witness_ValidateVerdict : (deviceType ++ [0xC8#8, 0x06#8]).length = 36 := by decide
/-- Length bytes 4 and 36, the ends of the range. -/
theorem witness_OneChecksumByteRejected :
    ([4#8, 36#8].all fun l =>
      let frame := deviceType ++ [0xC8#8, l]
      frame.length == 36 && decide (4 ≤ (frame.getD 35 0#8).toNat) &&
        decide ((frame.getD 35 0#8).toNat ≤ 36)) = true := by decide
theorem witness_WriteTrailerMakesValidFrame :
    ([] : List Byte).length + (List.replicate 32 0#8).length = 32 ∧
    (List.replicate 32 0#8).length + ([] : List Byte).length = 32 := by decide
theorem witness_ChecksumCommandResult : 36 < (37#16).toNat ∧ (36#16).toNat ≤ 36 ∧
    (List.replicate 36 0xFF#8).length = (36#16).toNat ∧
    Holds (filled (List.replicate 36 0xFF#8)).dbuf 0 (List.replicate 36 0xFF#8) :=
  ⟨by decide, by decide, by decide, filled_holds _⟩
/-- Length bytes 3 and 37 outside the range, 6 inside. -/
theorem witness_ValidateCommandResult :
    Memory.read (filled (deviceType ++ [0xC8#8, 3#8])).dbuf 35 = some 3#8 ∧
    Memory.read (filled (deviceType ++ [0xC8#8, 37#8])).dbuf 35 = some 37#8 ∧
    let s := filled (deviceType ++ [0xC8#8, 6#8])
    Memory.read s.dbuf 35 = some 6#8 ∧ Memory.read s.dbuf 34 = some 0xC8#8 ∧
    (deviceType.take 4).length = (6#8).toNat - 2 ∧ Holds s.dbuf 0 (deviceType.take 4) :=
  ⟨by decide, by decide, by decide, by decide, by decide, fun k hk => by
    have : k < 4 := hk
    interval_cases k <;> rfl⟩
/-- Frame DT, and the same with its padding unwritten (V45). -/
theorem witness_ValidateIgnoresPadding :
    let s1 := filled (deviceType ++ [0xC8#8, 6#8])
    let s2 := { State.reset with
      dbuf := Memory.writeRange (Memory.writeRange [] 0 (deviceType.take 4)) 34 [0xC8#8, 6#8] }
    Memory.read s1.dbuf 35 = some 6#8 ∧
    (∀ k, k < (6#8).toNat - 2 ∨ k = 34 ∨ k = 35 → Memory.read s1.dbuf k = Memory.read s2.dbuf k) ∧
    ∃ t, exec .validate s1 = .next t :=
  ⟨by decide, fun k hk => by
    have : k < 4 ∨ k = 34 ∨ k = 35 := hk
    rcases this with h | rfl | rfl
    · interval_cases k <;> rfl
    · rfl
    · rfl, _, rfl⟩

/-- OUT with its last two bytes written. -/
def outTail : State := { State.reset with out := Memory.writeRange [] 30 [0x12#8, 0x34#8] }

/-- Each clause: NEG_INDEX; BEYOND at each buffer's end; a word in either order at the end of OUT. -/
theorem witness_ComposeWordResult :
    ((0#16).getLsbD 0 = false ∧ (0#16).toNat = 0) ∧
    ((1#16).getLsbD 0 = true ∧ 36 ≤ (35#16).toNat + 1) ∧ ((0#16).getLsbD 0 = false ∧ 32 ≤ (32#16).toNat) ∧
    ((1#16).getLsbD 0 = true ∧ 31 = (30#16).toNat + 1 ∧ (30#16).toNat < 32 ∧
      Memory.read outTail.out 30 = some 0x12#8 ∧ Memory.read outTail.out 31 = some 0x34#8) ∧
    ((31#16).toNat = 30 + 1 ∧ (31#16).toNat < 32) := by decide
/-- Each clause: ORDER, SPAN, BEYOND, and two bytes at the end of OUT. -/
theorem witness_ComposeValueResult :
    (2#16).toNat ≤ (2#16).toNat ∧ (0#16).toNat + 3 < (4#16).toNat ∧
    ((34#16).toNat < (36#16).toNat ∧ (36#16).toNat ≤ (34#16).toNat + 3 ∧ 36 ≤ (36#16).toNat) ∧
    ((30#16).toNat < (31#16).toNat ∧ (31#16).toNat < 32 ∧
      [0x12#8, 0x34#8].length = (31#16).toNat - (30#16).toNat + 1 ∧
      Holds outTail.out (30#16).toNat [0x12#8, 0x34#8]) :=
  ⟨by decide, by decide, by decide, by decide, by decide, rfl, holds_writeRange [] 30 _⟩
theorem witness_ComposeDwordResult :
    Holds (four.memory .dbuf) 0 [0x11#8, 0x22#8, 0x33#8, 0x44#8] := filled_holds _
/-- Index 34, the last one with room in DBUF (W1). -/
theorem witness_ComposeWordRoundTrip : (34#16).toNat + 1 < 36 ∧
    Holds (Memory.writeRange [] (34#16).toNat [lo8 0x1234#16, hi8 0x1234#16]) (34#16).toNat
      [lo8 0x1234#16, hi8 0x1234#16] := ⟨by decide, holds_writeRange [] _ _⟩
theorem witness_DwordIsTwoWords : ∃ t tl th, exec (.composeDword 0#16) four = .next t ∧
    exec (.composeWord 0#16 1#16 0#16) four = .next tl ∧
    exec (.composeWord 2#16 1#16 0#16) four = .next th := ⟨_, _, _, rfl, rfl, rfl⟩

theorem witness_GatesEndBeforeTheBus : (0x3FFF#16).toNat < 0x4000 ∧ 0x5FFF < (0x6000#16).toNat ∧
    0x4000 ≤ (0x4000#16).toNat ∧ (0x5FFF#16).toNat ≤ 0x5FFF ∧ (0#16).toNat = 0 ∧ 32 < (33#16).toNat := by
  decide
/-- 32 bytes at the window's last address. -/
theorem witness_DataFlashCommandsBegin :
    0x4000 ≤ (0x5FFF#16).toNat ∧ (0x5FFF#16).toNat ≤ 0x5FFF ∧
    1 ≤ (32#16).toNat ∧ (32#16).toNat ≤ 32 ∧ (List.replicate 32 0xFF#8).length = (32#16).toNat ∧
    Holds (filled (List.replicate 32 0xFF#8)).dbuf 0 (List.replicate 32 0xFF#8) :=
  ⟨by decide, by decide, by decide, by decide, by decide, filled_holds _⟩
theorem witness_PureCommandFrame : (Instr.sizeCheck 1#16).op.pure = true ∧
    (∃ t, exec (.sizeCheck 1#16) State.reset = .next t) ∧
    ∃ t, exec (.checksum 37#16) State.reset = .next t ∧ t.code ≠ .ok :=
  ⟨rfl, ⟨_, rfl⟩, _, rfl, by decide⟩
theorem witness_TransportCommandFrame : (Instr.macRead 1#16).op.pure = false ∧
    (∃ t, exec (.macRead 1#16) State.reset = .next t) ∧ ∃ t, exec (.dfRead 1#16) State.reset = .next t :=
  ⟨rfl, ⟨_, rfl⟩, _, rfl⟩

/-- The device-type read of W5, and the gate's two boundaries. -/
theorem witness_BlockReadExchange :
    let frame := deviceType ++ [0xC8#8, 0x06#8]
    State.reset.busy = false ∧ 5 ≤ 5 ∧ frame.length = 36 ∧ 4 ≤ (frame.getD 35 0#8).toNat ∧
    (frame.getD 35 0#8).toNat ≤ 36 ∧
    ((frame.getD 34 0#8).toNat +
      ((frame.take ((frame.getD 35 0#8).toNat - 2)).map BitVec.toNat).sum) % 256 ≠ 0 ∧
    0x4000 ≤ (0x4000#16).toNat ∧ (0x5FFF#16).toNat ≤ 0x5FFF := by decide
/-- One byte and 32 bytes (V100, V103). -/
theorem witness_DfWriteExchange : (filled [5#8]).busy = false ∧ 0x4000 ≤ (0x4000#16).toNat ∧
    (0x5FFF#16).toNat ≤ 0x5FFF ∧ [5#8].length = (1#16).toNat ∧ Holds (filled [5#8]).dbuf 0 [5#8] ∧
    (List.replicate 32 0xFF#8).length = (32#16).toNat ∧
    Holds (filled (List.replicate 32 0xFF#8)).dbuf 0 (List.replicate 32 0xFF#8) :=
  ⟨rfl, by decide, by decide, by decide, filled_holds _, by decide, filled_holds _⟩
theorem witness_MacCmdExchange : State.reset.busy = false ∧
    ((3#16 : Half), 1000) ∈ [((0#16 : Half), 5), (1#16, 500), (2#16, 500), (3#16, 1000)] := by decide
theorem witness_UnsealExchange : State.reset.busy = false ∧ 1000 ≤ 1000 := by decide
theorem witness_IoErrorEndsCommand : [Phase.wCmd, .wPtr, .rBlk, .wPay, .wTrl, .wKey1, .wKey2].all (fun p =>
    goesOn { running 0x0000000000010001#64 p (.read 36#8) with schedule := [.answer .ioerr] }) = true := by
  decide
/-- Each phase with a running command of its own. -/
theorem witness_OkAnswerGoesOn :
    (running (encode (.macRead 1#16)) .wCmd (.write 0x3E#8 [1#8, 0#8])).cmd = encode (.macRead 1#16) ∧
    (running (encode (.dfRead 0x4000#16)) .wCmd (.write 0x3E#8 [0#8, 0x40#8])).pending =
      some (.write 0x3E#8 [0#8, 0x40#8]) ∧
    (running (encode (.macCmd 1#16 3#16)) .wCmd (.write 0x3E#8 [1#8, 0#8])).phase = .wCmd ∧
    (running (encode (.macRead 1#16)) .wPtr (.write 0x3E#8 [])).phase = .wPtr ∧
    (running (encode (.dfWrite 0x4000#16 1#16)) .wPay (.write 0x3E#8 [0#8, 0x40#8, 5#8])).phase = .wPay ∧
    (running (encode (.dfWrite 0x4000#16 1#16)) .wTrl (.write 0x60#8 [0xBA#8, 5#8])).phase = .wTrl ∧
    (running (encode (.unsealKey 1#16 2#16)) .wKey1 (.write 0x3E#8 [1#8, 0#8])).phase = .wKey1 ∧
    (running (encode (.unsealKey 1#16 2#16)) .wKey2 (.write 0x3E#8 [2#8, 0#8])).phase = .wKey2 :=
  ⟨rfl, rfl, rfl, rfl, rfl, rfl, rfl, rfl⟩
/-- V84, V86, V87. -/
theorem witness_BadReadAnswersFail : (List.replicate 35 0#8).length ≠ 36 ∧
    validate (List.replicate 36 0#8) = .badLength ∧
    validate ([2#8, 0#8, 5#8] ++ List.replicate 31 0#8 ++ [0xF9#8, 6#8]) = .sumZero ∧
    ([2#8, 0#8, 5#8] ++ List.replicate 31 0#8 ++ [0xF9#8, 6#8]).length = 36 := by decide
theorem witness_ZeroFrameFailsRead :
    (running 0x0000000000010001#64 .rBlk (.read 36#8)).phase = .rBlk ∧
    (running 0x0000000000010001#64 .rBlk (.read 36#8)).pending = some (.read 36#8) ∧
    4 ≤ (4#8).toNat ∧ (36#8).toNat ≤ 36 := by decide
/-- Just before and at the end of the delay, with either continuation. -/
theorem witness_SettleStepWaitsThenLeaves :
    let s := settling 0x0000000000010001#64 5 .pointerWrite
    s.phase = .settle ∧ s.timer = some ⟨0, 5, .pointerWrite⟩ ∧ (elapse 4 s).now < 0 + 5 ∧
    0 + 5 ≤ (elapse 5 s).now ∧
    (settling 0x0000000000410004#64 5 .complete).timer = some ⟨0, 5, .complete⟩ := by decide
theorem witness_OnlyElapsedDelayLeavesSettle :
    let s := elapse 5 (settling 0x0000000000010001#64 5 .pointerWrite)
    s.busy = true ∧ s.phase = .settle ∧ s.timer = some ⟨0, 5, .pointerWrite⟩ ∧
    nextAnd (stepOf .sequencer s) (fun t => t.phase != .settle) = true := by decide
theorem witness_SequencerWaitsForAnswer : (busyWith .sequencer).phase ≠ .settle := by decide
theorem witness_TimeChangesOnlyNow : (idle (.elapse 5)).schedule = .elapse 5 :: [] := rfl
theorem witness_ResetAbandonsCommand :
    (running 0x0000000000010001#64 .wCmd (.write 0x3E#8 [1#8, 0#8])).pending =
      some (.write 0x3E#8 [1#8, 0#8]) ∧
    (settling 0x0000000000010001#64 5 .pointerWrite).phase = .settle ∧
    (settling 0x0000000000010001#64 5 .pointerWrite).pending = none ∧
    { busyWith (.lateAnswer .ioerr) with abandoned := 1 }.abandoned = 0 + 1 ∧
    goesOn { busyWith (.lateAnswer .ioerr) with abandoned := 1 } = true := ⟨rfl, rfl, rfl, rfl, by decide⟩

theorem witness_OnlyHostWritesDbuf : ∃ t, step (idle (.host (.writeReg 0x63#8 [7#8]))) = .next t ∧
    t.dbuf ≠ (idle (.host (.writeReg 0x63#8 [7#8]))).dbuf := ⟨_, rfl, by decide⟩
theorem witness_OnlyPureCommandsWriteResult :
    nextAnd (step (idle (.host (.issueCmd 0x0000000000200019#64)))) (fun t => t.result != 0#32) = true := by
  decide
theorem witness_OnlyBlockReadsWriteOutput :
    nextAnd (stepOf (.answer (.ok (deviceType ++ [0xC8#8, 0x06#8])))
      (running 0x0000000000010001#64 .rBlk (.read 36#8)))
      (fun t => t.out != [] && t.outLen != 0#8 && t.frame != []) = true := by decide
theorem witness_RunningCommandWritesNothing : (busyWith (.answer (.ok []))).busy = true ∧
    nextAnd (step (busyWith (.answer (.ok [])))) (fun t => t.busy) = true := by decide
theorem witness_BusRequestsAreOfThreeForms :
    nextAnd (step (idle (.host (.issueCmd 0x0000000000010001#64))))
      (fun t => t.history.contains (.request (.write 0x3E#8 [1#8, 0#8]))) = true := by decide
theorem witness_HistoryOnlyGrows : goesOn (busyWith (.answer (.ok []))) = true := by decide
theorem witness_StepKeepsCanonicalBuffers :
    (∀ b, Memory.wf ((idle (.host (.writeDbuf 3 1#8))).memory b)) ∧
    goesOn (idle (.host (.writeDbuf 3 1#8))) = true :=
  ⟨fun b => reset_canonical b, by decide⟩

/-- A running MAC_READ that waits for its first answer. -/
def midRead : State := running (encode (.macRead 1#16)) .wCmd (commandWrite 1#16)

theorem midRead_inv : Inv midRead where
  sequencer :=
    { idle_iff := by decide
      fits := ⟨rfl, .macRead 1#16, 1#16, by decide, rfl, rfl⟩ }
  status :=
    { running := fun _ => ⟨rfl, rfl, rfl⟩
      reported := fun h => absurd h (by decide)
      fresh := fun h => absurd h (by decide) }
  buffers :=
    { canonical := reset_canonical
      inside := fun b => by cases b <;> simp [midRead, running, State.memory, State.reset]
      outLen_le := by decide
      payload := fun k hk => absurd hk (Nat.not_lt_zero k)
      whole := .inl rfl }

theorem witness_StepKeepsInvariant : Inv midRead ∧ ∃ t, step midRead = .next t := ⟨midRead_inv, _, rfl⟩
theorem witness_RunningCommandCanComplete : Inv midRead ∧ midRead.busy = true := ⟨midRead_inv, rfl⟩

/-- A failed read; a read with an empty payload; one of the string "A"; and one that is too short for it. -/
theorem witness_ReadHelpersStopAtFirstFailure :
    ¬(failedRead.done = true ∧ failedRead.code = .ok) ∧ (composed.done = true ∧ composed.code = .ok) ∧
    { composed with outLen := 0#8 }.outLen = 0#8 ∧ { composed with outLen := 1#8 }.outLen.toNat < 2 ∧
    2 ≤ composed.outLen.toNat ∧ Memory.read composed.out 0 = some 0x10#8 ∧
    composed.outLen.toNat < 1 + (0x10#8).toNat ∧
    1 + (1#8).toNat ≤ composed.outLen.toNat ∧ [0x41#8].length = (1#8).toNat ∧
    Memory.read (Memory.writeRange [] 0 [1#8, 0x41#8]) 0 = some 1#8 ∧
    Memory.read (Memory.writeRange [] 0 [1#8, 0x41#8]) 1 = some 0x41#8 := by decide

end Sys2Proof.Tests
end

section
/-! PROOFS. What a command's accepting step, an answer and a step of the machine can do: one inversion per
function, which every statement about all steps goes through. -/

namespace Sys2Proof.Machine

open Sys2Proof.Config

/-- What the accepting step of a command can do (spec 30_encoding.md R142, 42_gate.md R212): a pure command
ends, a gate ends the command, or the first bus request goes out. -/
inductive Begins (i : Instr) (s : State) : State → Prop
  | codecError {c : Cause} (pure : i.op.pure = true) (row : c ∈ [Cause.negIndex, .beyond, .order, .span]) :
      Begins i s (s.raise c)
  | result {v : Word32} (pure : i.op.pure = true) : Begins i s (s.completeWith v)
  | gateClosed {c : Cause} (transport : i.op.pure = false) (row : c ∈ [Cause.rangeAddr, .rangeSize]) :
      Begins i s (s.raise c)
  | commandWrite {a : Half} (sub : commandWriteOf i = some a) :
      Begins i s (s.issue .wCmd (commandWrite a))
  | payloadWrite {a len : Half} {payload : List Byte} (dfWrite : i = .dfWrite a len)
      (addr : dataFlashGate a = true) (size : isPayloadSizeValid len = true)
      (length : payload.length = len.toNat) (holds : Holds s.dbuf 0 payload) :
      Begins i s (s.issue .wPay (payloadWrite a payload))
  | keyWrite {k1 k2 : Half} (keys : i = .unsealKey k1 k2) : Begins i s (s.issue .wKey1 (keyWrite k1))

/-- A pure command built on composeValue ends with its value or with one of its three errors. -/
theorem begins_of_composeValueOf {i : Instr} {b : Buf} {f l : Nat} {s t : State} (pure : i.op.pure = true)
    (h : composeValueOf b f l s = .next t) : Begins i s t := by
  rcases composeValueOf_cases h with ⟨-, rfl⟩ | ⟨-, -, rfl⟩ | ⟨-, -, -, rfl⟩ | ⟨-, -, -, bs, -, -, rfl⟩
  · exact .codecError pure (by simp)
  · exact .codecError pure (by simp)
  · exact .codecError pure (by simp)
  · exact .result pure

/-- COMPOSE_WORD ends with its value or with BEYOND once its indices are known. -/
theorem begins_of_composeWordOf {i : Instr} {b : Buf} {j k : Nat} {s t : State} (pure : i.op.pure = true)
    (h : composeWordOf b j k s = .next t) : Begins i s t := by
  rcases composeWordOf_cases h with ⟨-, rfl⟩ | ⟨-, -, lo, hi, -, -, rfl⟩
  · exact .codecError pure (by simp)
  · exact .result pure

theorem execComposeWord_begins {i le bsel : Half} {s t : State}
    (h : execComposeWord i le bsel s = .next t) : Begins (.composeWord i le bsel) s t := by
  simp only [execComposeWord] at h
  split_ifs at h with hle h0
  · exact begins_of_composeWordOf rfl h
  · cases h; exact .codecError rfl (by simp)
  · exact begins_of_composeWordOf rfl h

theorem execChecksum_begins {n : Half} {s t : State} (h : execChecksum n s = .next t) :
    Begins (.checksum n) s t := by
  unfold execChecksum at h
  split_ifs at h with hn
  · cases h; exact .codecError rfl (by simp)
  · obtain ⟨data, -, ht⟩ := andThen_eq_next.1 h
    cases ht; exact .result rfl

theorem execValidate_begins {s t : State} (h : execValidate s = .next t) : Begins .validate s t := by
  obtain ⟨l, -, h⟩ := andThen_eq_next.1 h
  split_ifs at h with hl
  · obtain ⟨cks, -, h⟩ := andThen_eq_next.1 h
    obtain ⟨covered, -, ht⟩ := andThen_eq_next.1 h
    cases ht; exact .result rfl
  · cases h; exact .result rfl

theorem execDfRead_begins {a : Half} {s t : State} (h : execDfRead a s = .next t) :
    Begins (.dfRead a) s t := by
  unfold execDfRead at h
  split_ifs at h with ha <;> cases h
  · exact .commandWrite (by simp [commandWriteOf, blockReadOf, ha])
  · exact .gateClosed rfl (by simp)

theorem execDfWrite_begins {a n : Half} {s t : State} (h : execDfWrite a n s = .next t) :
    Begins (.dfWrite a n) s t := by
  unfold execDfWrite at h
  split_ifs at h with ha hn
  · obtain ⟨payload, hp, ht⟩ := andThen_eq_next.1 h
    obtain ⟨hlen, hholds⟩ := readRange_eq_next.1 hp
    cases ht; exact .payloadWrite rfl ha hn hlen hholds
  · cases h; exact .gateClosed rfl (by simp)
  · cases h; exact .gateClosed rfl (by simp)

/-- Every command's accepting step does one of the things `Begins` lists. -/
theorem exec_begins {i : Instr} {s t : State} (h : exec i s = .next t) : Begins i s t := by
  cases i with
  | macRead sub => cases h; exact .commandWrite rfl
  | dfRead addr => exact execDfRead_begins h
  | dfWrite addr len => exact execDfWrite_begins h
  | macCmd sub cls => cases h; exact .commandWrite rfl
  | unsealKey key1 key2 => cases h; exact .keyWrite rfl
  | checksum count => exact execChecksum_begins h
  | validate => exact execValidate_begins h
  | addrCheck addr lo hi => cases h; exact .result rfl
  | sizeCheck len => cases h; exact .result rfl
  | composeWord i le bsel => exact execComposeWord_begins h
  | composeValue f l bsel => exact begins_of_composeValueOf rfl h
  | composeDword bsel => exact begins_of_composeValueOf (b := selectBuf bsel) (f := 0) (l := 3) rfl h

/-- What the sequencer's reaction to the answer of the request `r` can do (spec 43_transport_read.md
R220-R230, 44_transport_write.md R260-R275). -/
inductive Reacts (r : BusReq) (a : BusAnswer) (s : State) : State → Prop
  | ioError (row : .io s.phase ∈ reportable) : Reacts r a s (s.raise (.io s.phase))
  | macCmdSettles {sub cls : Half} (phase : s.phase = .wCmd) (cmd : decode s.cmd = .command (.macCmd sub cls)) :
      Reacts r a s (s.settle (classDelay cls) .complete)
  | blockReadSettles (phase : s.phase = .wCmd) (cmd : ∀ sub cls, decode s.cmd ≠ .command (.macCmd sub cls)) :
      Reacts r a s (s.settle tRead .pointerWrite)
  | pointerWritten (phase : s.phase = .wPtr) : Reacts r a s (s.issue .rBlk blockRead)
  | wrongCount (phase : s.phase = .rBlk) : Reacts r a s (s.raise .readCount)
  | frameArrived {bytes : List Byte} (phase : s.phase = .rBlk) (answer : a = .ok bytes)
      (length : bytes.length = 36) : Reacts r a s (receiveFrame bytes s)
  | payloadWritten (phase : s.phase = .wPay) : Reacts r a s (s.issue .wTrl (trailerWrite r.data))
  | trailerWritten (phase : s.phase = .wTrl) : Reacts r a s (s.settle tDfWrite .complete)
  | firstKeyWritten (phase : s.phase = .wKey1) : Reacts r a s (s.issue .wKey2 (keyWrite (fieldB s.cmd)))
  | secondKeyWritten (phase : s.phase = .wKey2) : Reacts r a s (s.settle tUnseal .complete)

/-- An IO_ERROR of the running phase is a reaction. -/
theorem reacts_ioError {r : BusReq} {a : BusAnswer} {s : State} {p : Phase} (hp : s.phase = p)
    (row : .io p ∈ reportable) : Reacts r a s (s.raise (.io p)) := by
  subst hp; exact .ioError row

theorem afterCommandWrite_reacts {r : BusReq} {a : BusAnswer} {s : State} (hp : s.phase = .wCmd) :
    Reacts r a s (afterCommandWrite a s) := by
  unfold afterCommandWrite
  split
  · exact reacts_ioError hp (by simp [reportable])
  · split
    · next hd => exact .macCmdSettles hp hd
    · next hd => exact .blockReadSettles hp hd

theorem afterBlockRead_reacts {r : BusReq} {a : BusAnswer} {s : State} (hp : s.phase = .rBlk) :
    Reacts r a s (afterBlockRead a s) := by
  unfold afterBlockRead
  split
  · exact reacts_ioError hp (by simp [reportable])
  · split_ifs with hl
    · exact .frameArrived hp rfl hl
    · exact .wrongCount hp

/-- Every reaction to an answer does one of the things `Reacts` lists. -/
theorem react_reacts {r : BusReq} {a : BusAnswer} {s t : State} (h : react r a s = .next t) :
    Reacts r a s t := by
  rcases react_cases h with ⟨hp, rfl⟩ | ⟨hp, rfl⟩ | ⟨hp, rfl⟩ | ⟨hp, rfl⟩ | ⟨hp, rfl⟩ | ⟨hp, rfl⟩ | ⟨hp, rfl⟩
  case inl => exact afterCommandWrite_reacts hp
  case inr.inr.inl => exact afterBlockRead_reacts hp
  all_goals cases a with
    | ioerr => exact reacts_ioError hp (by simp [reportable])
    | ok bytes => ?_
  · exact .pointerWritten hp
  · exact .payloadWritten hp
  · exact .trailerWritten hp
  · exact .firstKeyWritten hp
  · exact .secondKeyWritten hp

/-- What one step of the machine can do (spec 10_state.md R30), by the agent that moves. -/
inductive Moves (s : State) : State → Prop
  | unscheduled (empty : s.schedule = []) : Moves s s
  | dropped {rest : List Event} {a : HostAction} (busy : s.busy = true) :
      Moves s ({ s with schedule := rest }.observe (.host a)).dropWrite
  | accepted {rest : List Event} {w : Word64} {t : State} (idle : s.busy = false) (next : IssueNext s w rest)
      (begins : beginCommand (decode w)
        (({ s with schedule := rest }.observe (.host (.issueCmd w))).accept w) = .next t) : Moves s t
  | dataWritten {rest : List Event} {i : Nat} {v : Byte} (idle : s.busy = false) (inside : i < 36)
      (next : WriteNext s i v rest) :
      Moves s { { s with schedule := rest }.observe (.host (.writeDbuf i v)) with dbuf := s.dbuf.write i v }
  | reset {rest : List Event} (next : s.schedule = .host .reset :: rest) :
      Moves s (hostReset { s with schedule := rest })
  | hostRead {rest : List Event} {off : Byte} {n : Nat} {bytes : List Byte} :
      Moves s ({ s with schedule := rest }.observe (.hostRead off n bytes))
  | sequencerWaits {rest : List Event} : Moves s { s with schedule := rest }
  | settleLeft {rest : List Event} {timer : SettleTimer} (next : s.schedule = .sequencer :: rest)
      (phase : s.phase = .settle) (running : s.timer = some timer) (passed : timer.t0 + timer.delay ≤ s.now) :
      Moves s (leaveSettle timer { s with schedule := rest })
  | answered {rest : List Event} {a : BusAnswer} {r : BusReq} {t : State} (next : s.schedule = .answer a :: rest)
      (pending : s.pending = some r)
      (reacts : Reacts r a (State.observe (.answer a) { s with schedule := rest, pending := none }) t) :
      Moves s t
  | lateAnswer {rest : List Event} {a : BusAnswer} {n : Nat} (abandoned : s.abandoned = n + 1) :
      Moves s (State.observe (.lateAnswer a) { s with schedule := rest, abandoned := n })
  | elapsed {rest : List Event} {ms : Nat} : Moves s (elapse ms { s with schedule := rest })

/-- A host action writes CMD or DBUF, is dropped, resets, or reads (spec 10_state.md R32). -/
theorem hostStep_moves {s t : State} {a : HostAction} {rest : List Event} (hs : s.schedule = .host a :: rest)
    (h : hostStep a { s with schedule := rest } = .next t) : Moves s t := by
  rcases hostStep_cases h with ⟨w, hw, ha⟩ | ⟨i, v, hw, ha⟩ | ⟨rfl, rfl⟩ | ⟨off, n, bytes, -, -, rfl⟩
  · have next : IssueNext s w rest := by
      rcases ha with rfl | ⟨off, data, rfl, hc⟩
      · exact .inl hs
      · obtain ⟨h0, rfl⟩ := classifyWrite_eq_issue hc
        obtain rfl : off = 0x00#8 := BitVec.eq_of_toNat_eq h0
        exact .inr hs
    rcases issueCmd_cases w { s with schedule := rest } with ⟨hb, he⟩ | ⟨hb, he⟩ <;> rw [he] at hw
    · cases hw; exact .dropped hb
    · exact .accepted hb next hw
  · obtain ⟨hi, ⟨hb, rfl⟩ | ⟨hb, rfl⟩⟩ := writeDbuf_eq_next.1 hw
    · exact .dropped hb
    · refine .dataWritten hb hi ?_
      rcases ha with rfl | ⟨off, data, rfl, hc⟩
      · exact .inl hs
      · obtain ⟨ho, -, rfl⟩ := classifyWrite_eq_data hc
        exact .inr ⟨off, ho, hs⟩
  · exact .reset hs
  · exact .hostRead

/-- The sequencer leaves SETTLE or waits (spec 60_exceptions.md R330). -/
theorem sequencerStep_moves {s : State} {rest : List Event} (hs : s.schedule = .sequencer :: rest) :
    Moves s (sequencerStep { s with schedule := rest }) := by
  rcases sequencerStep_cases { s with schedule := rest } with ⟨timer, hp, ht, hd, he⟩ | he <;> rw [he]
  · exact .settleLeft hs hp ht hd
  · exact .sequencerWaits

/-- Every step does one of the things `Moves` lists. -/
theorem step_moves {s t : State} (h : step s = .next t) : Moves s t := by
  obtain ⟨hs, rfl⟩ | ⟨e, rest, hs, he⟩ := step_cases h
  · exact .unscheduled hs
  cases e with
  | host a => exact hostStep_moves hs he
  | sequencer => cases he; exact sequencerStep_moves hs
  | answer a =>
    obtain ⟨r, hr, hreact⟩ := busAnswer_eq_next.1 he
    exact .answered hs hr (react_reacts hreact)
  | lateAnswer a =>
    obtain ⟨n, hn, rfl⟩ := lateBusAnswer_eq_next.1 he
    exact .lateAnswer hn
  | elapse ms => cases he; exact .elapsed

end Sys2Proof.Machine
end

section
/-! PROOFS. The machine's invariant (spec 10_state.md R42-R58, 20_memory.md R92, R106): reset meets it and
every step keeps it. Each operation of a command's life gets one lemma that says what it asks for. -/

namespace Sys2Proof.Machine

open Sys2Proof.Config

/-! ## What a decoded command says of its phases -/

/-- The fields of a legal word spell its command (R140). -/
theorem decode_eq_command {w : Word64} {i : Instr} (h : decode w = .command i) :
    ∃ op, i = instrOfFields (fieldA w) (fieldB w) (fieldC w) op := by
  unfold decode at h
  split at h
  · cases h
  · next op _ =>
    split_ifs at h
    cases h; exact ⟨op, rfl⟩

/-- The second key word of an UNSEAL is B of its word (spec 44_transport_write.md R275). -/
theorem fieldB_of_decode_unsealKey {w : Word64} {k1 k2 : Half} (h : decode w = .command (.unsealKey k1 k2)) :
    fieldB w = k2 := by
  obtain ⟨op, hi⟩ := decode_eq_command h
  cases op <;> simp [instrOfFields] at hi
  exact hi.2.symm

/-- A command that begins with a command write and is no MAC_CMD is a block read. -/
theorem blockReadOf_of_commandWriteOf {i : Instr} {a : Half} (h : commandWriteOf i = some a)
    (hi : ∀ sub cls, i ≠ .macCmd sub cls) : blockReadOf i = some a := by
  cases i with
  | macCmd sub cls => exact absurd rfl (hi sub cls)
  | _ => exact h

/-- A block read settles for T_READ and goes on with the pointer write (R222, R280). -/
theorem settleOf_of_blockReadOf {i : Instr} {a : Half} (h : blockReadOf i = some a) :
    settleOf i = some (tRead, .pointerWrite) := by
  cases i <;> simp [settleOf, blockReadOf] at h ⊢
  exact h.1

/-- Only a block read goes on with the pointer write after its delay (R280). -/
theorem blockReadOf_of_settleOf {i : Instr} {d : Nat} (h : settleOf i = some (d, .pointerWrite)) :
    ∃ a, blockReadOf i = some a := by
  cases i <;> simp [settleOf, blockReadOf] at h ⊢
  exact h.1

/-! ## The buffers -/

/-- The buffers' part of the invariant is about the three buffers and OUT_LEN alone. -/
theorem BufferInv.of_same {s t : State} (h : BufferInv s) (dbuf : t.dbuf = s.dbuf) (out : t.out = s.out)
    (frame : t.frame = s.frame) (outLen : t.outLen = s.outLen) : BufferInv t := by
  have memory : ∀ b, t.memory b = s.memory b := fun b => by cases b <;> assumption
  exact
    { canonical := fun b => by rw [memory]; exact h.canonical b
      inside := fun b => by rw [memory]; exact h.inside b
      outLen_le := by rw [outLen]; exact h.outLen_le
      payload := by rw [outLen, out]; exact h.payload
      whole := by rw [frame]; exact h.whole }

/-- The byte write to DBUF keeps the buffers' invariant (R54). -/
theorem BufferInv.writeDbuf {s : State} (h : BufferInv s) {i : Nat} (v : Byte) (hi : i < 36) :
    BufferInv { s with dbuf := s.dbuf.write i v } where
  canonical
    | .dbuf => wf_write (h.canonical .dbuf) i v
    | .out => h.canonical .out
    | .frame => h.canonical .frame
  inside
    | .dbuf => fun c hc => by
      rcases mem_write hc with rfl | hc
      · exact hi
      · exact h.inside .dbuf c hc
    | .out => h.inside .out
    | .frame => h.inside .frame
  outLen_le := h.outLen_le
  payload := h.payload
  whole := h.whole

/-- A whole frame keeps the buffers' invariant (R55, 20_memory.md R92). -/
theorem BufferInv.writeFrame {s : State} (h : BufferInv s) {bytes : List Byte} (hl : bytes.length = 36) :
    BufferInv { s with frame := s.frame.writeRange 0 bytes } where
  canonical
    | .dbuf => h.canonical .dbuf
    | .out => h.canonical .out
    | .frame => wf_writeRange (h.canonical .frame) 0 bytes
  inside
    | .dbuf => h.inside .dbuf
    | .out => h.inside .out
    | .frame => fun c hc => by
      rcases mem_writeRange hc with hc | hc
      · simp only [Buf.size, frameSize]; omega
      · exact h.inside .frame c hc
  outLen_le := h.outLen_le
  payload := h.payload
  whole := .inr fun k hk => by
    rw [read_writeRange, if_pos (by omega), Nat.sub_zero, List.getElem?_eq_getElem (by omega), Option.isSome_some]

/-- A payload of at most 32 bytes with its length in OUT_LEN keeps the buffers' invariant (R52, R53). -/
theorem BufferInv.writeOut {s : State} (h : BufferInv s) {payload : List Byte} {n : Byte}
    (hn : n.toNat = payload.length) (hl : payload.length ≤ 32) :
    BufferInv { s with out := s.out.writeRange 0 payload, outLen := n } where
  canonical
    | .dbuf => h.canonical .dbuf
    | .out => wf_writeRange (h.canonical .out) 0 payload
    | .frame => h.canonical .frame
  inside
    | .dbuf => h.inside .dbuf
    | .out => fun c hc => by
      rcases mem_writeRange hc with hc | hc
      · simp only [Buf.size, outSize]; omega
      · exact h.inside .out c hc
    | .frame => h.inside .frame
  outLen_le := by simp only; omega
  payload := fun k hk => by
    simp only [hn] at hk
    rw [read_writeRange, if_pos (by omega), Nat.sub_zero, List.getElem?_eq_getElem hk, Option.isSome_some]
  whole := h.whole

/-- A valid frame has a length byte of 4 to 36 (spec 41_validator.md R182). -/
theorem length_range_of_valid {frame : List Byte} (h : validate frame = .valid) :
    4 ≤ (frameByte frame lengthIndex).toNat ∧ (frameByte frame lengthIndex).toNat ≤ 36 := by
  simp only [validate] at h
  split_ifs at h with hl
  simpa [lengthOk] using hl

/-- The payload of a frame with a length byte `L` in range has `L - 4` bytes (R229). -/
theorem length_framePayload {frame : List Byte} (hf : frame.length = 36)
    (hmax : (frameByte frame lengthIndex).toNat ≤ 36) :
    (framePayload frame).length = (frameByte frame lengthIndex).toNat - 4 := by
  simp only [framePayload, List.length_take, List.length_drop, payloadIndex, serviceBytes]
  omega

/-- OUT_LEN of a delivered frame is the number of its payload bytes (R229). -/
theorem toNat_outLen {l : Byte} (hmin : 4 ≤ l.toNat) : (l - BitVec.ofNat 8 serviceBytes).toNat = l.toNat - 4 := by
  have : l.toNat < 256 := l.isLt
  simp only [BitVec.toNat_sub, BitVec.toNat_ofNat, serviceBytes]
  omega

/-! ## Ending a command and going on -/

/-- A command that ends with a row of R48 leaves the invariant, whatever ran before. -/
theorem inv_raise {s : State} {c : Cause} (hb : BufferInv s) (row : c ∈ reportable) : Inv (s.raise c) where
  sequencer := { idle_iff := by simp, fits := ⟨rfl, rfl⟩ }
  status :=
    { running := fun h => absurd h (by simp)
      reported := fun _ => ⟨c, row, rfl, rfl⟩
      fresh := fun _ h => absurd h (by simp) }
  buffers := hb.of_same rfl rfl rfl rfl

/-- What a running command's state meets whatever its phase (R42). -/
structure RunningInv (s : State) : Prop where
  busy : s.busy = true
  done : s.done = false
  code : s.code = .ok
  detail : s.detail = 0#8
  buffers : BufferInv s

/-- Outside IDLE the invariant says that a command runs (R56). -/
theorem Inv.running {s : State} (h : Inv s) (hp : s.phase ≠ .idle) : RunningInv s := by
  have busy : s.busy = true := by simpa using mt h.sequencer.idle_iff.2 hp
  obtain ⟨done, code, detail⟩ := h.status.running busy
  exact ⟨busy, done, code, detail, h.buffers⟩

/-- An accepted command runs (R42). -/
theorem runningInv_accept {s : State} (w : Word64) (hb : BufferInv s) : RunningInv (s.accept w) :=
  ⟨rfl, rfl, rfl, rfl, hb.of_same rfl rfl rfl rfl⟩

/-- A running command in a phase that fits meets the invariant. -/
theorem RunningInv.inv {s : State} (h : RunningInv s) (hp : s.phase ≠ .idle) (fits : PhaseFits s) : Inv s where
  sequencer := { idle_iff := by simp [hp, h.busy], fits := fits }
  status :=
    { running := fun _ => ⟨h.done, h.code, h.detail⟩
      reported := fun hd => absurd hd (by simp [h.done])
      fresh := fun hb => absurd hb (by simp [h.busy]) }
  buffers := h.buffers

/-- A running command that issues the request of the phase it enters meets the invariant (R58). -/
theorem RunningInv.issue {s : State} (h : RunningInv s) {p : Phase} {r : BusReq} (hp : p ≠ .idle)
    (fits : PhaseFits (s.issue p r)) : Inv (s.issue p r) :=
  RunningInv.inv ⟨h.busy, h.done, h.code, h.detail, h.buffers.of_same rfl rfl rfl rfl⟩ hp fits

/-- A running command that settles with its own delay meets the invariant (R57, R280). -/
theorem RunningInv.settle {s : State} (h : RunningInv s) {i : Instr} {d : Nat} {n : AfterSettle}
    (cmd : decode s.cmd = .command i) (row : settleOf i = some (d, n)) : Inv (s.settle d n) :=
  RunningInv.inv ⟨h.busy, h.done, h.code, h.detail, h.buffers.of_same rfl rfl rfl rfl⟩ (by simp)
    ⟨rfl, i, _, cmd, rfl, row, Nat.le_refl _⟩

/-! ## The environment -/

/-- The invariant says nothing of the history, the schedule and the abandoned calls, and time may go
on. -/
theorem Inv.of_environment {s : State} (h : Inv s) {now : Nat} (later : s.now ≤ now) (abandoned : Nat)
    (history : List Obs) (schedule : List Event) :
    Inv { s with now := now, abandoned := abandoned, history := history, schedule := schedule } where
  sequencer :=
    { idle_iff := h.sequencer.idle_iff
      fits := by
        have fits := h.sequencer.fits
        unfold PhaseFits at fits ⊢
        cases hp : s.phase with
        | settle =>
          simp only [hp] at fits ⊢
          obtain ⟨pending, i, t, cmd, timer, row, since⟩ := fits
          exact ⟨pending, i, t, cmd, timer, row, since.trans later⟩
        | _ => simp only [hp] at fits ⊢; exact fits }
  status := ⟨h.status.running, h.status.reported, h.status.fresh⟩
  buffers := h.buffers.of_same rfl rfl rfl rfl

/-- A dropped write sets REJECT, which the invariant looks at only when nothing has run (R46). -/
theorem Inv.dropWrite {s : State} (h : Inv s) (busy : s.busy = true) : Inv s.dropWrite where
  sequencer := ⟨h.sequencer.idle_iff, h.sequencer.fits⟩
  status := ⟨h.status.running, h.status.reported, fun idle => absurd idle (by simp [busy])⟩
  buffers := h.buffers.of_same rfl rfl rfl rfl

/-- A byte written to DBUF while no command runs keeps the invariant (R54). -/
theorem Inv.writeDbuf {s : State} (h : Inv s) (idle : s.busy = false) {i : Nat} (v : Byte) (hi : i < 36) :
    Inv { s with dbuf := s.dbuf.write i v } where
  sequencer :=
    { idle_iff := h.sequencer.idle_iff
      fits := by
        have fits := h.sequencer.fits
        have phase : s.phase = .idle := h.sequencer.idle_iff.2 idle
        simp only [PhaseFits, phase] at fits ⊢
        exact fits }
  status := ⟨h.status.running, h.status.reported, h.status.fresh⟩
  buffers := h.buffers.writeDbuf v hi

/-- The reset state meets the invariant: nothing runs, nothing is written. -/
theorem inv_reset : Inv State.reset where
  sequencer := { idle_iff := by simp [State.reset], fits := ⟨rfl, rfl⟩ }
  status :=
    { running := fun h => absurd h (by simp [State.reset])
      reported := fun h => absurd h (by simp [State.reset])
      fresh := fun _ _ => ⟨rfl, rfl, rfl, rfl, rfl, rfl, rfl, rfl⟩ }
  buffers :=
    { canonical := reset_canonical
      inside := fun b c hc => by cases b <;> exact absurd hc List.not_mem_nil
      outLen_le := Nat.zero_le _
      payload := fun k hk => absurd hk (Nat.not_lt_zero k)
      whole := .inl rfl }

/-! ## Each kind of step -/

/-- The accepting step of a command ends it or issues the request of its first phase. -/
theorem RunningInv.begins {i : Instr} {s t : State} (h : RunningInv s) (cmd : decode s.cmd = .command i)
    (b : Begins i s t) : Inv t := by
  cases b with
  | codecError pure row =>
    refine inv_raise h.buffers ?_
    simp only [List.mem_cons, List.not_mem_nil, or_false] at row
    rcases row with rfl | rfl | rfl | rfl <;> simp [reportable]
  | result pure => exact inv_raise (h.buffers.of_same rfl rfl rfl rfl) (by simp [reportable])
  | gateClosed transport row =>
    refine inv_raise h.buffers ?_
    simp only [List.mem_cons, List.not_mem_nil, or_false] at row
    rcases row with rfl | rfl <;> simp [reportable]
  | commandWrite sub => exact h.issue (by simp) ⟨rfl, i, _, cmd, sub, rfl⟩
  | payloadWrite dfWrite addr size length holds =>
    subst dfWrite
    exact h.issue (by simp) ⟨rfl, _, _, ⟨_, cmd, addr, size, length, holds⟩, rfl⟩
  | keyWrite keys =>
    subst keys
    exact h.issue (by simp) ⟨rfl, _, _, cmd, rfl⟩

/-- An accepted word runs its command or ends as illegal (R140, R141). -/
theorem inv_beginCommand {s t : State} (h : RunningInv s) (b : beginCommand (decode s.cmd) s = .next t) :
    Inv t := by
  rcases beginCommand_eq_next.1 b with ⟨i, cmd, he⟩ | ⟨-, rfl⟩ | ⟨-, rfl⟩
  · exact h.begins cmd (exec_begins he)
  · exact inv_raise h.buffers (by simp [reportable])
  · exact inv_raise h.buffers (by simp [reportable])

/-- A 36-byte frame is kept whole, and delivered only if it is valid (R227, R229, R230). -/
theorem inv_receiveFrame {s : State} {bytes : List Byte} (hb : BufferInv s) (hl : bytes.length = 36) :
    Inv (receiveFrame bytes s) := by
  have framed := hb.writeFrame hl
  rcases receiveFrame_cases bytes s with ⟨hv, he⟩ | ⟨-, he⟩ | ⟨-, he⟩ <;> rw [he]
  · obtain ⟨hmin, hmax⟩ := length_range_of_valid hv
    have hlen := length_framePayload hl hmax
    exact inv_raise (framed.writeOut ((toNat_outLen hmin).trans hlen.symm) (by omega)) (by simp [reportable])
  · exact inv_raise framed (by simp [reportable])
  · exact inv_raise framed (by simp [reportable])

/-- The reaction to an answer keeps the invariant: the phase answered says which command runs and which
request was pending, and the next phase asks for no more. -/
theorem Inv.reacts {s t : State} {rest : List Event} {r : BusReq} {a : BusAnswer} (h : Inv s)
    (pending : s.pending = some r)
    (reacts : Reacts r a (State.observe (.answer a) { s with schedule := rest, pending := none }) t) : Inv t := by
  have fits := h.sequencer.fits
  unfold PhaseFits at fits
  have hp : s.phase ≠ .idle := fun hp => by
    rw [hp, pending] at fits
    exact absurd fits.1 (by simp)
  obtain ⟨busy, done, code, detail, buffers⟩ := h.running hp
  have run : RunningInv (State.observe (.answer a) { s with schedule := rest, pending := none }) :=
    ⟨busy, done, code, detail, buffers.of_same rfl rfl rfl rfl⟩
  cases reacts with
  | ioError row => exact inv_raise run.buffers row
  | macCmdSettles phase cmd => exact run.settle cmd rfl
  | blockReadSettles phase other =>
    rw [show s.phase = .wCmd from phase] at fits
    obtain ⟨-, i, sub, cmd, write, -⟩ := fits
    have read : blockReadOf i = some sub :=
      blockReadOf_of_commandWriteOf write fun sub cls he => other sub cls (he ▸ cmd)
    exact run.settle cmd (settleOf_of_blockReadOf read)
  | pointerWritten phase =>
    rw [show s.phase = .wPtr from phase] at fits
    obtain ⟨-, -, read⟩ := fits
    exact run.issue (by simp) ⟨rfl, rfl, read⟩
  | wrongCount phase => exact inv_raise run.buffers (by simp [reportable])
  | frameArrived phase answer length => exact inv_receiveFrame run.buffers length
  | payloadWritten phase =>
    rw [show s.phase = .wPay from phase, pending] at fits
    obtain ⟨-, addr, payload, write, hr⟩ := fits
    obtain rfl : r = payloadWrite addr payload := by simpa using hr
    exact run.issue (by simp) ⟨rfl, addr, payload, write, rfl⟩
  | trailerWritten phase =>
    rw [show s.phase = .wTrl from phase] at fits
    obtain ⟨-, addr, payload, ⟨len, cmd, -⟩, -⟩ := fits
    exact run.settle cmd rfl
  | firstKeyWritten phase =>
    rw [show s.phase = .wKey1 from phase] at fits
    obtain ⟨-, k1, k2, cmd, -⟩ := fits
    exact run.issue (by simp) ⟨rfl, k1, k2, cmd, by simp [fieldB_of_decode_unsealKey cmd]⟩
  | secondKeyWritten phase =>
    rw [show s.phase = .wKey2 from phase] at fits
    obtain ⟨-, k1, k2, cmd, -⟩ := fits
    exact run.settle cmd rfl

/-- Leaving SETTLE issues the pointer write of a block read or completes the command (R57, R330). -/
theorem Inv.leaveSettle {s : State} {timer : SettleTimer} (h : Inv s) (phase : s.phase = .settle)
    (running : s.timer = some timer) : Inv (leaveSettle timer s) := by
  have run := h.running (by simp [phase])
  have fits := h.sequencer.fits
  simp only [PhaseFits, phase, running, Option.some.injEq] at fits
  obtain ⟨-, i, _, cmd, rfl, row, -⟩ := fits
  rcases leaveSettle_cases timer s with ⟨hn, he⟩ | ⟨hn, he⟩ <;> rw [he]
  · have observed : RunningInv (s.observe (.settleExit timer.delay s.now)) :=
      ⟨run.busy, run.done, run.code, run.detail, run.buffers.of_same rfl rfl rfl rfl⟩
    rw [hn] at row
    obtain ⟨a, hread⟩ := blockReadOf_of_settleOf row
    exact observed.issue (by simp) ⟨rfl, rfl, i, a, cmd, hread⟩
  · exact inv_raise (run.buffers.of_same rfl rfl rfl rfl) (by simp [reportable])

/-- Every step keeps the invariant, by the agent that moves. -/
theorem Inv.moves {s t : State} (h : Inv s) (m : Moves s t) : Inv t := by
  have recorded (rest : List Event) (o : Obs) : Inv ({ s with schedule := rest }.observe o) :=
    h.of_environment (Nat.le_refl _) _ _ _
  cases m with
  | unscheduled empty => exact h
  | dropped busy => exact (recorded _ _).dropWrite busy
  | accepted idle next begins => exact inv_beginCommand (runningInv_accept _ (recorded _ _).buffers) begins
  | dataWritten idle inside next => exact (recorded _ _).writeDbuf idle _ inside
  | reset next => exact inv_reset.of_environment (Nat.zero_le _) _ _ _
  | hostRead => exact recorded _ _
  | sequencerWaits => exact h.of_environment (Nat.le_refl _) _ _ _
  | settleLeft next phase running passed =>
    exact (h.of_environment (Nat.le_refl _) _ _ _).leaveSettle phase running
  | answered next pending reacts => exact h.reacts pending reacts
  | lateAnswer abandoned => exact h.of_environment (Nat.le_refl _) _ _ _
  | elapsed => exact h.of_environment (Nat.le_add_right _ _) _ _ _

/-- Settles O57: nothing runs after reset and nothing is written. -/
theorem resetMeetsInvariant : Obligations.ResetMeetsInvariant := inv_reset

/-- Settles O58, by the inversion of the step and one lemma per kind of move. -/
theorem stepKeepsInvariant : Obligations.StepKeepsInvariant :=
  fun _ _ h hstep => h.moves (step_moves hstep)

end Sys2Proof.Machine
end

section
/-! PROOFS. Who writes which register (spec 10_state.md R42, R51-R55): what each operation of a command's life
keeps, and from that what a step that changes a register must be. -/

namespace Sys2Proof.Machine

/-- What a command and the sequencer never write: CMD, REJECT and DBUF, and the environment's time, abandoned
calls and schedule (R39). -/
structure KeepsHostSide (s t : State) : Prop where
  cmd : t.cmd = s.cmd
  reject : t.reject = s.reject
  dbuf : t.dbuf = s.dbuf
  now : t.now = s.now
  abandoned : t.abandoned = s.abandoned
  schedule : t.schedule = s.schedule

/-- OUT_LEN, OUT and FRAME are as before (R52, R53, R55). -/
structure KeepsOutput (s t : State) : Prop where
  outLen : t.outLen = s.outLen
  out : t.out = s.out
  frame : t.frame = s.frame

/-! ## The accepting step -/

theorem Begins.keepsHostSide {i : Instr} {s t : State} (h : Begins i s t) : KeepsHostSide s t := by
  cases h <;> exact ⟨rfl, rfl, rfl, rfl, rfl, rfl⟩

theorem Begins.keepsOutput {i : Instr} {s t : State} (h : Begins i s t) : KeepsOutput s t := by
  cases h <;> exact ⟨rfl, rfl, rfl⟩

/-- RESULT changes only where a pure command succeeds (R51). -/
theorem Begins.pure_of_result_ne {i : Instr} {s t : State} (h : Begins i s t) (hr : t.result ≠ s.result) :
    i.op.pure = true ∧ t.busy = false ∧ t.done = true ∧ t.code = .ok := by
  cases h with
  | result pure => exact ⟨pure, rfl, rfl, rfl⟩
  | _ => exact absurd rfl hr

/-- A transport command at acceptance issues one request or is ended by a gate (42_gate.md R212). -/
theorem Begins.request_or_rangeError {i : Instr} {s t : State} (h : Begins i s t) (hi : i.op.pure = false) :
    t.result = s.result ∧
    ((∃ r, t.pending = some r ∧ t.history = s.history ++ [.request r] ∧ t.busy = s.busy ∧
        t.done = s.done ∧ t.code = s.code ∧ t.detail = s.detail) ∨
     (t.pending = none ∧ t.history = s.history ∧ t.busy = false ∧ t.done = true ∧ t.code = .rangeError)) := by
  cases h with
  | codecError pure row => simp [hi] at pure
  | result pure => simp [hi] at pure
  | @gateClosed c transport row =>
    have code : c.code = .rangeError := by
      simp only [List.mem_cons, List.not_mem_nil, or_false] at row
      rcases row with rfl | rfl <;> rfl
    exact ⟨rfl, .inr ⟨rfl, rfl, rfl, rfl, code⟩⟩
  | commandWrite sub => exact ⟨rfl, .inl ⟨_, rfl, rfl, rfl, rfl, rfl, rfl⟩⟩
  | payloadWrite dfWrite addr size length holds => exact ⟨rfl, .inl ⟨_, rfl, rfl, rfl, rfl, rfl, rfl⟩⟩
  | keyWrite keys => exact ⟨rfl, .inl ⟨_, rfl, rfl, rfl, rfl, rfl, rfl⟩⟩

/-- An accepted word, legal or not, writes nothing of the host's and no output. -/
theorem beginCommand_keeps {d : Decoded} {s t : State} (h : beginCommand d s = .next t) :
    KeepsHostSide s t ∧ KeepsOutput s t := by
  rcases beginCommand_eq_next.1 h with ⟨i, -, he⟩ | ⟨-, rfl⟩ | ⟨-, rfl⟩
  · exact ⟨(exec_begins he).keepsHostSide, (exec_begins he).keepsOutput⟩
  · exact ⟨⟨rfl, rfl, rfl, rfl, rfl, rfl⟩, ⟨rfl, rfl, rfl⟩⟩
  · exact ⟨⟨rfl, rfl, rfl, rfl, rfl, rfl⟩, ⟨rfl, rfl, rfl⟩⟩

/-! ## The sequencer's steps -/

theorem receiveFrame_keepsHostSide (bytes : List Byte) (s : State) :
    KeepsHostSide s (receiveFrame bytes s) ∧ (receiveFrame bytes s).result = s.result ∧
      (receiveFrame bytes s).done = true := by
  rcases receiveFrame_cases bytes s with ⟨-, he⟩ | ⟨-, he⟩ | ⟨-, he⟩ <;> rw [he] <;>
    exact ⟨⟨rfl, rfl, rfl, rfl, rfl, rfl⟩, rfl, rfl⟩

/-- Only a frame that validates is delivered (R230). -/
theorem receiveFrame_out {bytes : List Byte} {s : State}
    (h : (receiveFrame bytes s).out ≠ s.out ∨ (receiveFrame bytes s).outLen ≠ s.outLen) :
    (receiveFrame bytes s).code = .ok := by
  rcases receiveFrame_cases bytes s with ⟨-, he⟩ | ⟨-, he⟩ | ⟨-, he⟩ <;> rw [he] at h ⊢
  · rfl
  · exact absurd h (by simp)
  · exact absurd h (by simp)

theorem Reacts.keepsHostSide {r : BusReq} {a : BusAnswer} {s t : State} (h : Reacts r a s t) :
    KeepsHostSide s t ∧ t.result = s.result := by
  cases h with
  | frameArrived phase answer length =>
    obtain ⟨keeps, result, -⟩ := receiveFrame_keepsHostSide _ s
    exact ⟨keeps, result⟩
  | _ => exact ⟨⟨rfl, rfl, rfl, rfl, rfl, rfl⟩, rfl⟩

/-- Only a 36-byte answer in R_BLK writes output (R55, R226, R227). -/
theorem Reacts.keepsOutput_or_frame {r : BusReq} {a : BusAnswer} {s t : State} (h : Reacts r a s t) :
    KeepsOutput s t ∨
      (s.phase = .rBlk ∧ ∃ bytes, a = .ok bytes ∧ bytes.length = 36 ∧ t = receiveFrame bytes s) := by
  cases h with
  | frameArrived phase answer length => exact .inr ⟨phase, _, answer, length, rfl⟩
  | _ => exact .inl ⟨rfl, rfl, rfl⟩

theorem leaveSettle_keeps (timer : SettleTimer) (s : State) :
    KeepsHostSide s (leaveSettle timer s) ∧ KeepsOutput s (leaveSettle timer s) ∧
      (leaveSettle timer s).result = s.result := by
  rcases leaveSettle_cases timer s with ⟨-, he⟩ | ⟨-, he⟩ <;> rw [he] <;>
    exact ⟨⟨rfl, rfl, rfl, rfl, rfl, rfl⟩, ⟨rfl, rfl, rfl⟩, rfl⟩

/-! ## What a step that changes a register is -/

/-- CMD is written by Reset and by the acceptance of the word it then holds (R42). -/
theorem Moves.of_cmd_ne {s t : State} (m : Moves s t) (h : t.cmd ≠ s.cmd) :
    (∃ rest, s.schedule = .host .reset :: rest) ∨ (s.busy = false ∧ ∃ rest, IssueNext s t.cmd rest) := by
  cases m with
  | reset next => exact .inl ⟨_, next⟩
  | accepted idle next begins =>
    obtain ⟨keeps, -⟩ := beginCommand_keeps begins
    exact .inr ⟨idle, _, by rw [keeps.cmd]; exact next⟩
  | settleLeft next phase running passed => exact absurd (leaveSettle_keeps _ _).1.cmd h
  | answered next pending reacts => exact absurd reacts.keepsHostSide.1.cmd h
  | _ => exact absurd rfl h

/-- DBUF is written by Reset and by the host's byte write to an idle BTF (R54). -/
theorem Moves.of_dbuf_ne {s t : State} (m : Moves s t) (h : t.dbuf ≠ s.dbuf) :
    (∃ rest, s.schedule = .host .reset :: rest) ∨
    (s.busy = false ∧ ∃ i v rest, i < 36 ∧ t.dbuf = Memory.write s.dbuf i v ∧ WriteNext s i v rest) := by
  cases m with
  | reset next => exact .inl ⟨_, next⟩
  | dataWritten idle inside next => exact .inr ⟨idle, _, _, _, inside, rfl, next⟩
  | accepted idle next begins => exact absurd (beginCommand_keeps begins).1.dbuf h
  | settleLeft next phase running passed => exact absurd (leaveSettle_keeps _ _).1.dbuf h
  | answered next pending reacts => exact absurd reacts.keepsHostSide.1.dbuf h
  | _ => exact absurd rfl h

/-- The pure commands are the seven of R51. -/
theorem mem_of_pure {op : Op} (h : op.pure = true) :
    op ∈ [Op.checksum, .validate, .addrCheck, .sizeCheck, .composeWord, .composeValue, .composeDword] := by
  revert h; cases op <;> decide

/-- RESULT is written by Reset and by a pure command that succeeds as it is accepted (R51). -/
theorem Moves.of_result_ne {s t : State} (m : Moves s t) (h : t.result ≠ s.result) :
    (∃ rest, s.schedule = .host .reset :: rest) ∨
    (s.busy = false ∧ t.busy = false ∧ t.done = true ∧ t.code = .ok ∧
      ∃ i rest, IssueNext s t.cmd rest ∧ decode t.cmd = .command i ∧
        i.op ∈ [Op.checksum, .validate, .addrCheck, .sizeCheck, .composeWord, .composeValue,
          .composeDword]) := by
  cases m with
  | reset next => exact .inl ⟨_, next⟩
  | @accepted rest w _ idle next begins =>
    rcases beginCommand_eq_next.1 begins with ⟨i, hd, he⟩ | ⟨-, rfl⟩ | ⟨-, rfl⟩
    · have cmd : t.cmd = w := (exec_begins he).keepsHostSide.cmd
      obtain ⟨pure, busy, done, code⟩ := (exec_begins he).pure_of_result_ne h
      exact .inr ⟨idle, busy, done, code, i, rest, by rw [cmd]; exact next, by rw [cmd]; exact hd,
        mem_of_pure pure⟩
    · exact absurd rfl h
    · exact absurd rfl h
  | settleLeft next phase running passed => exact absurd (leaveSettle_keeps _ _).2.2 h
  | answered next pending reacts => exact absurd reacts.keepsHostSide.2 h
  | _ => exact absurd rfl h

/-- A step keeps OUT_LEN, OUT and FRAME unless it is Reset or the arrival of a 36-byte frame in R_BLK. -/
theorem Moves.keepsOutput_or {s t : State} (m : Moves s t) :
    KeepsOutput s t ∨ (∃ rest, s.schedule = .host .reset :: rest) ∨
    (s.phase = .rBlk ∧ ∃ bytes rest, bytes.length = 36 ∧ s.schedule = .answer (.ok bytes) :: rest ∧
      ∃ u : State, u.out = s.out ∧ u.outLen = s.outLen ∧ t = receiveFrame bytes u) := by
  cases m with
  | reset next => exact .inr (.inl ⟨_, next⟩)
  | accepted idle next begins =>
    obtain ⟨outLen, out, frame⟩ := (beginCommand_keeps begins).2
    exact .inl ⟨outLen, out, frame⟩
  | settleLeft next phase running passed =>
    obtain ⟨-, ⟨outLen, out, frame⟩, -⟩ := leaveSettle_keeps _ _
    exact .inl ⟨outLen, out, frame⟩
  | answered next pending reacts =>
    rcases reacts.keepsOutput_or_frame with ⟨outLen, out, frame⟩ | ⟨phase, bytes, rfl, length, ht⟩
    · exact .inl ⟨outLen, out, frame⟩
    · refine .inr (.inr ⟨phase, bytes, _, length, next, _, ?_, ?_, ht⟩) <;> rfl
  | _ => exact .inl ⟨rfl, rfl, rfl⟩

/-! ## The statements -/

/-- Settles O36, from the inversion of the accepting step. -/
theorem transportCommandFrame : Obligations.TransportCommandFrame := by
  intro i s t hi hexec
  have begins := exec_begins hexec
  obtain ⟨cmd, reject, dbuf, now, abandoned, schedule⟩ := begins.keepsHostSide
  obtain ⟨outLen, out, frame⟩ := begins.keepsOutput
  obtain ⟨result, outcome⟩ := begins.request_or_rangeError hi
  exact ⟨cmd, reject, result, outLen, out, dbuf, frame, now, abandoned, schedule, outcome⟩

/-- Settles O50, by the kind of step. -/
theorem onlyHostWritesDbuf : Obligations.OnlyHostWritesDbuf :=
  fun _ _ hstep hne => (step_moves hstep).of_dbuf_ne hne

/-- Settles O51, by the kind of step. -/
theorem onlyPureCommandsWriteResult : Obligations.OnlyPureCommandsWriteResult :=
  ⟨fun _ _ hstep hne => (step_moves hstep).of_result_ne hne, rfl⟩

/-- Settles O52: a step that keeps no output is Reset or receives a frame, and a frame that changes OUT or
OUT_LEN has validated. -/
theorem onlyBlockReadsWriteOutput : Obligations.OnlyBlockReadsWriteOutput := by
  intro s t hstep hne
  rcases (step_moves hstep).keepsOutput_or with
    ⟨outLen, out, frame⟩ | hreset | ⟨phase, bytes, rest, length, next, u, out, outLen, rfl⟩
  · simp [outLen, out, frame] at hne
  · exact .inl hreset
  · obtain ⟨-, -, done⟩ := receiveFrame_keepsHostSide bytes u
    refine .inr ⟨phase, done, ⟨bytes, rest, length, next⟩, fun hout => ?_⟩
    rw [← out, ← outLen] at hout
    exact receiveFrame_out hout

end Sys2Proof.Machine
end

section
/-! PROOFS. The host port (spec 10_state.md R32-R61): issuing and dropping commands, the byte write to DBUF,
reads of the window, the fields of STATUS, and the accesses that fault. -/

namespace Sys2Proof.Machine

open Sys2Proof.Config

/-! ## Commands and byte writes -/

/-- An idle BTF accepts the word and begins it (R42). -/
theorem issueCmd_of_idle {s : State} (w : Word64) (h : s.busy = false) :
    issueCmd w s = beginCommand (decode w) ((s.observe (.host (.issueCmd w))).accept w) := by
  simp [issueCmd, h]

/-- A busy BTF drops the word (R42, R46). -/
theorem issueCmd_of_busy {s : State} (w : Word64) (h : s.busy = true) :
    issueCmd w s = .next (s.observe (.host (.issueCmd w))).dropWrite := by
  simp [issueCmd, h]

@[simp] theorem length_cmdBytes (w : Word64) : (cmdBytes w).length = 8 := by simp [cmdBytes]

/-- The first eight offsets of the window hold CMD, low byte first (R34, R41). -/
theorem windowByte_cmd {s : State} {k : Nat} (h : k < 8) : windowByte s k = some (byteOf s.cmd.toNat k) := by
  simp [windowByte, h]

/-- The bytes of STATUS stand at 0x08, low byte first (R34, R41). -/
theorem windowByte_status {s : State} {k : Nat} (h : k < 4) :
    windowByte s (0x08 + k) = some (byteOf (statusWord s).toNat k) := by
  rw [windowByte, if_neg (by omega), if_pos (by omega), Nat.add_sub_cancel_left]

/-- A read of CMD answers its eight bytes, busy or idle. -/
theorem readWindow_cmd (s : State) : readWindow 0x00 8 s = .next (cmdBytes s.cmd) := by
  rw [← length_cmdBytes s.cmd]
  refine readWindow_eq_next fun k hk => ?_
  rw [length_cmdBytes] at hk
  simp [windowByte_cmd hk, cmdBytes]

/-- Settles O7: the two outcomes of an issued word, what CMD reads as, and who writes it. -/
theorem issueCmdAcceptsOrDrops : Obligations.IssueCmdAcceptsOrDrops := by
  refine ⟨fun s w rest hs => ⟨fun idle => ?_, fun busy => ?_⟩, readWindow_cmd,
    fun s t hstep hne => (step_moves hstep).of_cmd_ne hne, rfl⟩
  · exact (step_issueNext hs).trans (issueCmd_of_idle w idle)
  · exact (step_issueNext hs).trans (issueCmd_of_busy w busy)

/-- Settles O8: the accepted word is decoded and its command's family rule is the step. -/
theorem stepRunsDecodedCommand : Obligations.StepRunsDecodedCommand := by
  intro s w i rest hs idle hd
  obtain ⟨accepted, -⟩ := issueCmdAcceptsOrDrops.1 s w rest hs
  rw [accepted idle, hd]
  rfl

/-- Settles O10: the two outcomes of the byte write, and read after write. -/
theorem writeDbufSetsOneByte : Obligations.WriteDbufSetsOneByte := by
  intro s i v rest hs hi
  rw [step_writeNext hs hi]
  constructor
  · intro idle
    exact ⟨_, writeDbuf_eq_next.2 ⟨hi, .inr ⟨idle, rfl⟩⟩, read_write s.dbuf i v, rfl⟩
  · intro busy
    exact writeDbuf_eq_next.2 ⟨hi, .inl ⟨busy, rfl⟩⟩

/-! ## Reads -/

/-- A step whose next move reads the window answers its bytes into the history (R32). -/
theorem step_readReg {s : State} {off : Byte} {n : Nat} {rest : List Event}
    (h : s.schedule = .host (.readReg off n) :: rest) :
    step s = andThen (readWindow off.toNat n { s with schedule := rest }) fun bytes =>
      .next ({ s with schedule := rest }.observe (.hostRead off n bytes)) :=
  step_cons h

/-- A read of cells answers one byte each. -/
theorem length_of_readCells {off n : Nat} {s : State} {bytes : List Byte}
    (h : readCells off n s = .next bytes) : bytes.length = n := by
  induction n generalizing off bytes with
  | zero => cases h; rfl
  | succ n ih =>
    rw [readCells] at h
    split at h
    · cases h
    · obtain ⟨v, -, h⟩ := andThen_eq_next.1 h
      obtain ⟨vs, hvs, h⟩ := andThen_eq_next.1 h
      cases h
      rw [List.length_cons, ih hvs]

/-- A read of the window answers as many bytes as it was asked for. -/
theorem length_of_readWindow {off n : Nat} {s : State} {bytes : List Byte}
    (h : readWindow off n s = .next bytes) : bytes.length = n := by
  unfold readWindow at h
  split at h
  · cases h
  · exact length_of_readCells h

/-- Settles O11: the step records the bytes and nothing else. -/
theorem hostReadChangesNothing : Obligations.HostReadChangesNothing := by
  intro s t off n rest hs hstep
  rw [step_readReg hs] at hstep
  obtain ⟨bytes, hread, ht⟩ := andThen_eq_next.1 hstep
  cases ht
  exact ⟨bytes, length_of_readWindow hread, rfl⟩

/-- Settles O13: offsets that all hold a byte are read in order. -/
theorem hostReadsAnswerTheWindow : Obligations.HostReadsAnswerTheWindow := by
  intro s off bytes rest hs hbytes
  have hread : readWindow off.toNat bytes.length { s with schedule := rest } = .next bytes :=
    readWindow_eq_next hbytes
  rw [step_readReg hs, hread]
  rfl

/-- Settles O12, as the read of the window at 0x08. -/
theorem statusReadsLittleEndian : Obligations.StatusReadsLittleEndian := by
  intro s rest hs
  refine hostReadsAnswerTheWindow s 0x08#8
    ((List.range 4).map fun k => BitVec.ofNat 8 ((statusWord s).toNat / 256 ^ k)) rest (by simpa using hs) ?_
  intro k hk
  have hk4 : k < 4 := by simpa using hk
  simpa [byteOf] using windowByte_status (s := s) hk4

/-! ## The STATUS word -/

/-- Every bit of the STATUS word (R43, R50). -/
theorem getLsbD_statusWord (s : State) (i : Nat) :
    (statusWord s).getLsbD i =
      if i = 0 then s.busy else if i = 1 then s.done else if i = 2 then s.reject else if i = 3 then false
      else if i < 8 then s.code.bits.getLsbD (i - 4) else if i < 16 then s.detail.getLsbD (i - 8)
      else s.phase.bits.getLsbD (i - 16) := by
  have code : 4 ≤ i - 4 → s.code.bits.getLsbD (i - 4) = false := BitVec.getLsbD_of_ge _ _
  have detail : 8 ≤ i - 8 → s.detail.getLsbD (i - 8) = false := BitVec.getLsbD_of_ge _ _
  have phase : 4 ≤ i - 16 → s.phase.bits.getLsbD (i - 16) = false := BitVec.getLsbD_of_ge _ _
  simp only [statusWord, BitVec.getLsbD_or, BitVec.getLsbD_shiftLeft, BitVec.getLsbD_setWidth,
    BitVec.getLsbD_ofBool]
  split_ifs with h0 h1 h2 h3 h8 h16
  · simp [h0]
  · simp [h1]
  · simp [h2]
  · simp [h3]
  all_goals grind

/-- A field of the STATUS word is a value whose bits stand there (R43). -/
theorem extractLsb'_statusWord {s : State} {start len : Nat} {v : BitVec len}
    (h : ∀ k, k < len → (statusWord s).getLsbD (start + k) = v.getLsbD k) :
    (statusWord s).extractLsb' start len = v :=
  BitVec.eq_of_getLsbD_eq fun k hk => by
    rw [BitVec.getLsbD_extractLsb', decide_eq_true hk, Bool.true_and]; exact h k hk

theorem statusWord_code (s : State) : (statusWord s).extractLsb' 4 4 = s.code.bits :=
  extractLsb'_statusWord fun k hk => by
    rw [getLsbD_statusWord, if_neg (by omega), if_neg (by omega), if_neg (by omega), if_neg (by omega),
      if_pos (by omega), Nat.add_sub_cancel_left]

theorem statusWord_detail (s : State) : (statusWord s).extractLsb' 8 8 = s.detail :=
  extractLsb'_statusWord fun k hk => by
    rw [getLsbD_statusWord, if_neg (by omega), if_neg (by omega), if_neg (by omega), if_neg (by omega),
      if_neg (by omega), if_pos (by omega), Nat.add_sub_cancel_left]

/-- The bits from 16 on show PHASE and nothing above it. -/
theorem getLsbD_statusWord_ge {s : State} {k : Nat} :
    (statusWord s).getLsbD (16 + k) = s.phase.bits.getLsbD k := by
  rw [getLsbD_statusWord, if_neg (by omega), if_neg (by omega), if_neg (by omega), if_neg (by omega),
    if_neg (by omega), if_neg (by omega), Nat.add_sub_cancel_left]

theorem statusWord_phase (s : State) : (statusWord s).extractLsb' 16 4 = s.phase.bits :=
  extractLsb'_statusWord fun _ _ => getLsbD_statusWord_ge

theorem statusWord_reserved (s : State) : (statusWord s).extractLsb' 20 12 = 0#12 :=
  extractLsb'_statusWord fun k _ => by
    rw [show 20 + k = 16 + (4 + k) by omega, getLsbD_statusWord_ge, BitVec.getLsbD_of_ge _ _ (by omega),
      BitVec.getLsbD_zero]

/-- The numbers of the nine phases (R49). -/
theorem phase_bits_mem (p : Phase) : (p, p.bits.toNat) ∈
    [(Phase.idle, 0), (Phase.wCmd, 1), (Phase.settle, 2), (Phase.wPtr, 3), (Phase.rBlk, 4),
     (Phase.wPay, 5), (Phase.wTrl, 6), (Phase.wKey1, 7), (Phase.wKey2, 8)] := by
  cases p <;> decide

/-- Settles O14, field by field from the bits of the word. -/
theorem statusWordLayout : Obligations.StatusWordLayout := by
  intro s
  refine ⟨getLsbD_statusWord s 0, getLsbD_statusWord s 1, getLsbD_statusWord s 2, getLsbD_statusWord s 3,
    statusWord_code s, statusWord_detail s, statusWord_phase s, statusWord_reserved s, ?_⟩
  rw [statusWord_phase]
  exact phase_bits_mem s.phase

/-- Settles O15: the rows of R48, evaluated. -/
theorem causeNumbers : Obligations.CauseNumbers := rfl

/-- Settles O5: no buffer byte is written after reset. -/
theorem resetValues : Obligations.ResetValues :=
  ⟨rfl, rfl, rfl, rfl, rfl, rfl, rfl, fun b _ => readBuf_unwritten (by cases b <;> rfl)⟩

/-- Outside SETTLE the sequencer's own step waits (R33). -/
theorem sequencerStep_of_phase_ne {s : State} (h : s.phase ≠ .settle) : sequencerStep s = s := by
  rcases sequencerStep_cases s with ⟨timer, hp, -⟩ | he
  · exact absurd hp h
  · exact he

/-- Settles O47. -/
theorem sequencerWaitsForAnswer : Obligations.SequencerWaitsForAnswer := by
  intro s rest hp hs
  have waits : sequencerStep { s with schedule := rest } = { s with schedule := rest } :=
    sequencerStep_of_phase_ne hp
  rw [step_cons hs, agentStep, waits]

/-! ## Unwritten bytes -/

/-- An operation stops with a fault that names an unwritten byte of the buffer (R61). -/
def FaultsUnwritten {α : Type} (s : State) (b : Buf) (o : Attempt α) : Prop :=
  ∃ k, Memory.read (s.memory b) k = none ∧ o = .fault (.unwritten b k)

/-- A sequence that begins with the read of an unwritten byte faults. -/
theorem faultsUnwritten_readBuf {α : Type} {s : State} {b : Buf} {i : Nat} {f : Byte → Attempt α}
    (h : Memory.read (s.memory b) i = none) : FaultsUnwritten s b (andThen (readBuf b i s) f) :=
  ⟨i, h, by rw [readBuf_unwritten h, andThen_fault]⟩

/-- A sequence that begins with the read of a range with an unwritten byte faults. -/
theorem faultsUnwritten_readRange {α : Type} {s : State} {b : Buf} {i n : Nat} {f : List Byte → Attempt α}
    (h : SomeUnwritten (s.memory b) i n) : FaultsUnwritten s b (andThen (readRange b i n s) f) := by
  obtain ⟨k, -, hr, hf⟩ := readRange_unwritten h
  exact ⟨i + k, hr, by rw [hf, andThen_fault]⟩

/-- A sequence that reads a byte of a buffer faults if that byte is unwritten, or if what follows a written
one faults. -/
theorem faultsUnwritten_andThen {α : Type} {s : State} {b : Buf} {i : Nat} {f : Byte → Attempt α}
    (h : ∀ v, Memory.read (s.memory b) i = some v → FaultsUnwritten s b (f v)) :
    FaultsUnwritten s b (andThen (readBuf b i s) f) := by
  cases hi : Memory.read (s.memory b) i with
  | none => exact faultsUnwritten_readBuf hi
  | some v =>
    rw [readBuf_eq_next.2 hi, andThen_next]
    exact h v hi

/-! ### Commands -/

theorem checksum_unwritten {n : Half} {s : State} (hn : n.toNat ≤ 36) (h : SomeUnwritten s.dbuf 0 n.toNat) :
    FaultsUnwritten s .dbuf (exec (.checksum n) s) := by
  rw [exec, execChecksum, if_neg (Nat.not_lt.2 hn)]
  exact faultsUnwritten_readRange h

/-- VALIDATE reads the length byte first, then the checksum byte, then the covered bytes (R181, R186). -/
theorem validate_unwritten {l : Byte} {s : State} (hl : Memory.read s.dbuf 35 = some l) (hmin : 4 ≤ l.toNat)
    (hmax : l.toNat ≤ 36) (h : Memory.read s.dbuf 34 = none ∨ SomeUnwritten s.dbuf 0 (l.toNat - 2)) :
    FaultsUnwritten s .dbuf (exec .validate s) := by
  have inRange : lengthOk l = true := by simp [lengthOk, hmin, hmax]
  have hlen : readBuf .dbuf lengthIndex s = .next l := readBuf_eq_next.2 hl
  rw [exec, execValidate, hlen, andThen_next, if_pos inRange]
  refine faultsUnwritten_andThen fun cks hcks => faultsUnwritten_readRange ?_
  exact h.resolve_left (by rw [show Memory.read s.dbuf 34 = some cks from hcks]; simp)

/-- The address gate lets the data-flash window through (R210). -/
theorem dataFlashGate_iff {a : Half} : dataFlashGate a = true ↔ 0x4000 ≤ a.toNat ∧ a.toNat ≤ 0x5FFF := by
  simp [dataFlashGate, isAddressValid]

/-- The size gate lets 1 to 32 bytes through (R201). -/
theorem isPayloadSizeValid_iff {n : Half} : isPayloadSizeValid n = true ↔ 1 ≤ n.toNat ∧ n.toNat ≤ 32 := by
  simp [isPayloadSizeValid]

theorem dfWrite_unwritten {a n : Half} {s : State} (ha : dataFlashGate a = true)
    (hn : isPayloadSizeValid n = true) (h : SomeUnwritten s.dbuf 0 n.toNat) :
    FaultsUnwritten s .dbuf (exec (.dfWrite a n) s) := by
  rw [exec, execDfWrite, if_pos ha, if_pos hn]
  exact faultsUnwritten_readRange h

theorem composeValueOf_unwritten {b : Buf} {f l : Nat} {s : State} (hlt : f < l) (hspan : l ≤ f + 3)
    (hin : l < b.size) (h : SomeUnwritten (s.memory b) f (l - f + 1)) :
    FaultsUnwritten s b (composeValueOf b f l s) := by
  rw [composeValueOf, if_neg (by omega), if_neg (by omega), if_neg (by omega)]
  exact faultsUnwritten_readRange h

theorem composeWordOf_unwritten {b : Buf} {i j : Nat} {s : State} (hi : i < b.size) (hj : j < b.size)
    (h : Memory.read (s.memory b) i = none ∨ Memory.read (s.memory b) j = none) :
    FaultsUnwritten s b (composeWordOf b i j s) := by
  rw [composeWordOf, if_neg (by omega)]
  refine faultsUnwritten_andThen fun lo hlo => faultsUnwritten_readBuf ?_
  exact h.resolve_left (by simp [hlo])

/-- COMPOSE_WORD takes the high byte after the low one, or before it (R161). -/
theorem composeWord_unwritten {i le bsel : Half} {j : Nat} {s : State}
    (order : (le.getLsbD 0 = true ∧ j = i.toNat + 1) ∨ (le.getLsbD 0 = false ∧ i.toNat = j + 1))
    (hi : i.toNat < (selectBuf bsel).size) (hj : j < (selectBuf bsel).size)
    (h : Memory.read (s.memory (selectBuf bsel)) i.toNat = none ∨
      Memory.read (s.memory (selectBuf bsel)) j = none) :
    FaultsUnwritten s (selectBuf bsel) (exec (.composeWord i le bsel) s) := by
  have run := composeWordOf_unwritten hi hj h
  rcases order with ⟨hle, rfl⟩ | ⟨hle, hij⟩
  · simpa [exec, execComposeWord, show flagOf le = true from hle] using run
  · simpa [exec, execComposeWord, show flagOf le = false from hle, hij] using run

/-- The sizes of the two buffers BSEL selects (R160). -/
theorem size_selectBuf (bsel : Half) : (selectBuf bsel).size = if bsel.getLsbD 0 then 32 else 36 := by
  unfold selectBuf flagOf
  split <;> rfl

/-! ### Host reads -/

/-- A buffer's bytes stand in the window from its base on (R41). -/
theorem windowCell_base_add {b : Buf} {base len i : Nat}
    (hb : (b, base, len) ∈ [(Buf.out, 0x20, 32), (Buf.dbuf, 0x40, 36), (Buf.frame, 0x80, 36)]) (hi : i < len) :
    windowCell (base + i) = some (.buffer b i) ∧ base + len ≤ 0xA4 := by
  simp only [List.mem_cons, List.not_mem_nil, or_false, Prod.mk.injEq] at hb
  unfold windowCell
  rcases hb with ⟨rfl, rfl, rfl⟩ | ⟨rfl, rfl, rfl⟩ | ⟨rfl, rfl, rfl⟩
  · rw [if_neg (by omega), if_neg (by omega), if_neg (by omega), if_neg (by omega), if_neg (by omega),
      if_pos (by omega), Nat.add_sub_cancel_left]
    exact ⟨rfl, by decide⟩
  · rw [if_neg (by omega), if_neg (by omega), if_neg (by omega), if_neg (by omega), if_neg (by omega),
      if_neg (by omega), if_pos (by omega), Nat.add_sub_cancel_left]
    exact ⟨rfl, by decide⟩
  · rw [if_neg (by omega), if_neg (by omega), if_neg (by omega), if_neg (by omega), if_neg (by omega),
      if_neg (by omega), if_neg (by omega), if_neg (by omega), if_pos (by omega), Nat.add_sub_cancel_left]
    exact ⟨rfl, by decide⟩

/-- A host read of mapped offsets of which one has no byte faults, naming an unwritten byte among them. -/
theorem step_readReg_unwritten {s : State} {off : Byte} {n k : Nat} {rest : List Event}
    (mapped : ∀ j, j < n → (windowCell (off.toNat + j)).isSome) (hk : k < n)
    (hn : windowByte s (off.toNat + k) = none) (hs : s.schedule = .host (.readReg off n) :: rest) :
    ∃ j b i, j < n ∧ windowCell (off.toNat + j) = some (.buffer b i) ∧
      Memory.read (s.memory b) i = none ∧ step s = .fault (.unwritten b i) := by
  obtain ⟨j, b, i, hj, hc, hr, hf⟩ := readCells_unwritten (s := { s with schedule := rest }) mapped hk hn
  refine ⟨j, b, i, hj, hc, hr, ?_⟩
  rw [step_readReg hs, readWindow, firstReserved_eq_none mapped]
  simp only [hf, andThen_fault]

/-- A host read inside one buffer that touches an unwritten byte faults, naming one of that buffer. -/
theorem readInside_unwritten {s : State} {b : Buf} {base len i n : Nat} {rest : List Event}
    (hb : (b, base, len) ∈ [(Buf.out, 0x20, 32), (Buf.dbuf, 0x40, 36), (Buf.frame, 0x80, 36)])
    (hin : i + n ≤ len) (h : SomeUnwritten (s.memory b) i n)
    (hs : s.schedule = .host (.readReg (BitVec.ofNat 8 (base + i)) n) :: rest) :
    FaultsUnwritten s b (step s) := by
  obtain ⟨k, hk, hr⟩ := h
  have cell : ∀ j, j < n → windowCell (base + i + j) = some (.buffer b (i + j)) := fun j hj => by
    rw [Nat.add_assoc]; exact (windowCell_base_add hb (by omega)).1
  have toNat : (BitVec.ofNat 8 (base + i)).toNat = base + i := by
    have := (windowCell_base_add hb (i := i) (by omega)).2
    rw [BitVec.toNat_ofNat, Nat.mod_eq_of_lt (by omega)]
  obtain ⟨j, b', i', hj, hc, hr', hf⟩ := step_readReg_unwritten (k := k)
    (fun j hj => by rw [toNat, cell j hj]; rfl) hk
    (by rw [toNat]; exact windowByte_eq_none.2 (.inr ⟨b, i + k, cell k hk, hr⟩)) hs
  rw [toNat, cell j hj] at hc
  cases hc
  exact ⟨i + j, hr', hf⟩

/-- A host read across mapped registers that touches an unwritten byte faults, naming one it touches. -/
theorem readAcross_unwritten {s : State} {off : Byte} {n k : Nat} {rest : List Event}
    (mapped : ∀ j, j < n → Mapped (off.toNat + j)) (hk : k < n) (hn : windowByte s (off.toNat + k) = none)
    (hs : s.schedule = .host (.readReg off n) :: rest) :
    ∃ b base i, (b, base) ∈ [(Buf.out, 0x20), (Buf.dbuf, 0x40), (Buf.frame, 0x80)] ∧
      off.toNat ≤ base + i ∧ base + i < off.toNat + n ∧
      Memory.read (s.memory b) i = none ∧ step s = .fault (.unwritten b i) := by
  obtain ⟨j, b, i, hj, hc, hr, hf⟩ :=
    step_readReg_unwritten (fun j hj => windowCell_isSome.2 (mapped j hj)) hk hn hs
  obtain ⟨base, hb, ho⟩ := windowCell_buffer hc
  exact ⟨b, base, i, hb, by omega, by omega, hr, hf⟩

/-- Settles O17, clause by clause. -/
theorem unwrittenBytesFault : Obligations.UnwrittenBytesFault := by
  intro s faults source size
  have hsize (bsel : Half) : (selectBuf bsel).size = size bsel := size_selectBuf bsel
  refine ⟨?inside, ?across, ?checksum, ?validateLength, ?validate, ?dfWrite, ?dword, ?value, ?word⟩
  case inside => exact fun b base len i n rest hb hin h hs => readInside_unwritten hb hin h hs
  case across => exact fun off n k rest mapped hk hn hs => readAcross_unwritten mapped hk hn hs
  case checksum => exact fun n hn h => checksum_unwritten hn h
  case validateLength => exact fun h => faultsUnwritten_readBuf h
  case validate => exact fun l hl hmin hmax h => validate_unwritten hl hmin hmax h
  case dfWrite =>
    exact fun a n hlo hhi hmin hmax h =>
      dfWrite_unwritten (dataFlashGate_iff.2 ⟨hlo, hhi⟩) (isPayloadSizeValid_iff.2 ⟨hmin, hmax⟩) h
  case dword =>
    intro bsel h
    have fits : 3 < (selectBuf bsel).size := by rw [size_selectBuf]; split <;> decide
    exact composeValueOf_unwritten (by decide) (by decide) fits h
  case value =>
    intro f l bsel hlt hspan hin h
    rw [← hsize] at hin
    exact composeValueOf_unwritten hlt hspan hin h
  case word =>
    intro i le bsel j order hi hj h
    rw [← hsize] at hi hj
    exact composeWord_unwritten order hi hj h

end Sys2Proof.Machine
end

section
/-! PROOFS. What a buffer's bytes compose to (spec 20_memory.md R88, 40_codec.md R161-R164): COMPOSE_WORD and
COMPOSE_DWORD both answer little-endian values, and the value of a byte sequence is made of the values of its
parts. -/

namespace Sys2Proof.Machine

open Sys2Proof.Config

/-- The low and high byte of COMPOSE_WORD are a little-endian value of two bytes (R161, R162). -/
theorem composeBytes_eq_littleEndianValue (hi lo : Byte) : composeBytes hi lo = littleEndianValue [lo, hi] := by
  apply BitVec.eq_of_getLsbD_eq
  intro i hi32
  have hlo : 16 ≤ i → lo.getLsbD i = false := fun h => BitVec.getLsbD_of_ge lo i (by omega)
  have hhi : 16 ≤ i → hi.getLsbD (i - 8) = false := fun h => BitVec.getLsbD_of_ge hi _ (by omega)
  simp only [composeBytes, littleEndianValue, BitVec.getLsbD_setWidth, BitVec.getLsbD_or,
    BitVec.getLsbD_shiftLeft, BitVec.zero_shiftLeft, BitVec.or_zero]
  by_cases h16 : i < 16
  · simp [h16, hi32, show i - 8 < 16 by omega, show i - 8 < 32 by omega, Bool.or_comm]
  · simp [h16, hlo (by omega), hhi (by omega)]

/-- The little-endian value of a sequence, from the values of its two parts (R162). -/
theorem littleEndianValue_append (low high : List Byte) :
    littleEndianValue (low ++ high) = littleEndianValue low ||| littleEndianValue high <<< (8 * low.length) := by
  induction low with
  | nil => simp [littleEndianValue]
  | cons b low ih =>
    rw [List.cons_append, littleEndianValue_cons, littleEndianValue_cons, ih, BitVec.shiftLeft_or_distrib,
      ← BitVec.shiftLeft_add, BitVec.or_assoc, List.length_cons, Nat.mul_succ]

/-- What a buffer holds from an index on is one list of each length. -/
theorem holds_unique {m : Memory} {i : Nat} {bs cs : List Byte} (hlen : bs.length = cs.length)
    (hb : Holds m i bs) (hc : Holds m i cs) : bs = cs :=
  List.ext_getElem hlen fun k hkb hkc => Option.some.inj ((hb k hkb).symm.trans (hc k hkc))

/-- Bytes that stand one part after the other stand as a whole. -/
theorem holds_append {m : Memory} {i : Nat} {low high : List Byte} (hl : Holds m i low)
    (hh : Holds m (i + low.length) high) : Holds m i (low ++ high) := by
  intro k hk
  rw [List.getElem_append]
  split
  · next h => exact hl k h
  · next h =>
    rw [← hh (k - low.length) (by rw [List.length_append] at hk; omega)]
    congr 1; omega

/-- Two bytes that stand side by side. -/
theorem holds_pair {m : Memory} {i : Nat} {lo hi : Byte} (hlo : Memory.read m i = some lo)
    (hhi : Memory.read m (i + 1) = some hi) : Holds m i [lo, hi]
  | 0, _ => hlo
  | 1, _ => hhi

/-- Either buffer BSEL selects has at least 32 bytes (R160). -/
theorem le_size_selectBuf (bsel : Half) : 32 ≤ (selectBuf bsel).size := by
  rw [size_selectBuf]; split <;> decide

/-- COMPOSE_DWORD, where it answers, answers the value of the buffer's first four bytes (R164). -/
theorem composeDword_result {bsel : Half} {s t : State} (h : exec (.composeDword bsel) s = .next t) :
    ∃ bytes : List Byte, bytes.length = 4 ∧ Holds (s.memory (selectBuf bsel)) 0 bytes ∧
      t.result = littleEndianValue bytes := by
  have hsize := le_size_selectBuf bsel
  rcases composeValueOf_cases (b := selectBuf bsel) (f := 0) (l := 3) h with
    ⟨order, -⟩ | ⟨-, span, -⟩ | ⟨-, -, beyond, -⟩ | ⟨-, -, -, bytes, hlen, holds, rfl⟩
  · omega
  · omega
  · omega
  · exact ⟨bytes, hlen, holds, rfl⟩

/-- A little-endian COMPOSE_WORD with room for its two bytes, where it answers, answers their value (R161). -/
theorem composeWord_result {i bsel : Half} {s t : State} (room : i.toNat + 1 < (selectBuf bsel).size)
    (h : exec (.composeWord i 1#16 bsel) s = .next t) :
    ∃ bytes : List Byte, bytes.length = 2 ∧ Holds (s.memory (selectBuf bsel)) i.toNat bytes ∧
      t.result = littleEndianValue bytes := by
  rcases composeWordOf_cases (b := selectBuf bsel) (i := i.toNat) (j := i.toNat + 1) h with
    ⟨beyond, -⟩ | ⟨-, -, lo, hi, hlo, hhi, rfl⟩
  · omega
  · exact ⟨[lo, hi], rfl, holds_pair hlo hhi, composeBytes_eq_littleEndianValue hi lo⟩

/-- Settles O31: the four bytes of the dword are the two of each word, and the value of the whole is the low
part's with the high part's two bytes up. -/
theorem dwordIsTwoWords : Obligations.DwordIsTwoWords := by
  intro bsel s t tl th hdword hlow hhigh
  have hsize := le_size_selectBuf bsel
  obtain ⟨bytes, hlen, holds, hresult⟩ := composeDword_result hdword
  obtain ⟨low, hlowLen, holdsLow, hlowResult⟩ := composeWord_result (show 0 + 1 < _ by omega) hlow
  obtain ⟨high, hhighLen, holdsHigh, hhighResult⟩ := composeWord_result (show 2 + 1 < _ by omega) hhigh
  have whole : Holds (s.memory (selectBuf bsel)) 0 (low ++ high) :=
    holds_append holdsLow (by rw [hlowLen]; exact holdsHigh)
  have parts : bytes = low ++ high :=
    holds_unique (by rw [hlen, List.length_append, hlowLen, hhighLen]) holds whole
  rw [hresult, hlowResult, hhighResult, parts, littleEndianValue_append, hlowLen]

end Sys2Proof.Machine
end

section
/-! PROOFS. What every step keeps (spec 20_memory.md R80, R81, R101-R108): the registers of a running command,
the form of the observable history and of the bus requests in it, and the buffers' canonical form. -/

namespace Sys2Proof.Machine

open Sys2Proof.Config

/-! ## The registers of a running command -/

/-- Every register of the host window is as before, but for BUSY, REJECT and PHASE of STATUS (R103). -/
structure KeepsRegisters (s t : State) : Prop where
  cmd : t.cmd = s.cmd
  done : t.done = s.done
  code : t.code = s.code
  detail : t.detail = s.detail
  result : t.result = s.result
  outLen : t.outLen = s.outLen
  out : t.out = s.out
  dbuf : t.dbuf = s.dbuf
  frame : t.frame = s.frame

/-- A command ends with its frame, whatever the verdict (R227, R230). -/
theorem receiveFrame_busy (bytes : List Byte) (s : State) : (receiveFrame bytes s).busy = false := by
  rcases receiveFrame_cases bytes s with ⟨-, he⟩ | ⟨-, he⟩ | ⟨-, he⟩ <;> rw [he] <;> rfl

/-- A reaction that leaves the command running issues the next request or settles. -/
theorem Reacts.keepsRegisters {r : BusReq} {a : BusAnswer} {s t : State} (h : Reacts r a s t)
    (running : t.busy = true) : KeepsRegisters s t := by
  cases h with
  | ioError row => exact absurd running (by simp)
  | wrongCount phase => exact absurd running (by simp)
  | frameArrived phase answer length => exact absurd running (by simp [receiveFrame_busy])
  | _ => exact ⟨rfl, rfl, rfl, rfl, rfl, rfl, rfl, rfl, rfl⟩

/-- SETTLE is left for the pointer write or for good. -/
theorem leaveSettle_keepsRegisters {timer : SettleTimer} {s : State}
    (running : (leaveSettle timer s).busy = true) : KeepsRegisters s (leaveSettle timer s) := by
  rcases leaveSettle_cases timer s with ⟨-, he⟩ | ⟨-, he⟩ <;> rw [he] at running ⊢
  · exact ⟨rfl, rfl, rfl, rfl, rfl, rfl, rfl, rfl, rfl⟩
  · exact absurd running (by simp)

/-- A step between two states of running commands writes no register: the host's writes are dropped, and what
writes a register ends the command (R103, R106). -/
theorem Moves.keepsRegisters {s t : State} (m : Moves s t) (before : s.busy = true) (after : t.busy = true) :
    KeepsRegisters s t := by
  cases m with
  | accepted idle next begins => exact absurd before (by simp [idle])
  | dataWritten idle inside next => exact absurd before (by simp [idle])
  | reset next => exact absurd after (by simp [State.reset])
  | settleLeft next phase running passed => exact { leaveSettle_keepsRegisters after with }
  | answered next pending reacts => exact { reacts.keepsRegisters after with }
  | _ => exact ⟨rfl, rfl, rfl, rfl, rfl, rfl, rfl, rfl, rfl⟩

/-- Settles O53, by the kind of step. -/
theorem runningCommandWritesNothing : Obligations.RunningCommandWritesNothing := by
  intro s t hstep before after
  obtain ⟨cmd, done, code, detail, result, outLen, out, dbuf, frame⟩ :=
    (step_moves hstep).keepsRegisters before after
  exact ⟨cmd, done, code, detail, result, outLen, out, dbuf, frame⟩

/-! ## The observable history -/

/-- The bus requests of the wire formats (R81, R91, 30_encoding.md R121-R127): a write to REG_MAC, the trailer
write to REG_CKS, the block read. -/
inductive WireRequest : BusReq → Prop
  | mac (data : List Byte) : WireRequest (.write regMac data)
  | trailer (cs len : Byte) : WireRequest (.write regCks [cs, len])
  | blockRead : WireRequest blockRead

/-- What the BTF adds to the history of its own in one step: nothing, one bus request, or its entry into
SETTLE (R108). -/
inductive Emits : List Obs → Prop
  | nothing : Emits []
  | request {r : BusReq} (wire : WireRequest r) : Emits [.request r]
  | settle (d t0 : Nat) : Emits [.settleEnter d t0]

/-- What one step adds to the history: nothing, or the move it is, which is no bus request, and then what the
BTF adds of its own. -/
inductive Records : List Obs → Prop
  | nothing : Records []
  | move {o : Obs} {emitted : List Obs} (noRequest : ∀ r, o ≠ .request r) (emits : Emits emitted) :
      Records (o :: emitted)

/-- The accepting step of a command issues at most its first request. -/
theorem Begins.emits {i : Instr} {s t : State} (h : Begins i s t) :
    ∃ emitted, Emits emitted ∧ t.history = s.history ++ emitted := by
  cases h with
  | commandWrite sub => exact ⟨_, .request (.mac _), rfl⟩
  | payloadWrite dfWrite addr size length holds => exact ⟨_, .request (.mac _), rfl⟩
  | keyWrite keys => exact ⟨_, .request (.mac _), rfl⟩
  | _ => exact ⟨[], .nothing, by simp⟩

/-- An illegal word issues no request (30_encoding.md R141). -/
theorem beginCommand_emits {d : Decoded} {s t : State} (h : beginCommand d s = .next t) :
    ∃ emitted, Emits emitted ∧ t.history = s.history ++ emitted := by
  rcases beginCommand_eq_next.1 h with ⟨i, -, he⟩ | ⟨-, rfl⟩ | ⟨-, rfl⟩
  · exact (exec_begins he).emits
  · exact ⟨[], .nothing, by simp⟩
  · exact ⟨[], .nothing, by simp⟩

/-- A frame is received without a further request. -/
theorem receiveFrame_history (bytes : List Byte) (s : State) : (receiveFrame bytes s).history = s.history := by
  rcases receiveFrame_cases bytes s with ⟨-, he⟩ | ⟨-, he⟩ | ⟨-, he⟩ <;> rw [he] <;> rfl

/-- A reaction to an answer issues the next request, settles, or ends the command. -/
theorem Reacts.emits {r : BusReq} {a : BusAnswer} {s t : State} (h : Reacts r a s t) :
    ∃ emitted, Emits emitted ∧ t.history = s.history ++ emitted := by
  cases h with
  | ioError row => exact ⟨[], .nothing, by simp⟩
  | wrongCount phase => exact ⟨[], .nothing, by simp⟩
  | frameArrived phase answer length => exact ⟨[], .nothing, by simp [receiveFrame_history]⟩
  | pointerWritten phase => exact ⟨_, .request .blockRead, rfl⟩
  | payloadWritten phase => exact ⟨_, .request (.trailer _ _), rfl⟩
  | firstKeyWritten phase => exact ⟨_, .request (.mac _), rfl⟩
  | _ => exact ⟨_, .settle _ _, rfl⟩

/-- Leaving SETTLE is recorded, and then the pointer write, if it follows (R57). -/
theorem leaveSettle_emits (timer : SettleTimer) (s : State) :
    ∃ emitted, Emits emitted ∧
      (leaveSettle timer s).history = s.history ++ .settleExit timer.delay s.now :: emitted := by
  rcases leaveSettle_cases timer s with ⟨-, he⟩ | ⟨-, he⟩ <;> rw [he]
  · exact ⟨[.request pointerWrite], .request (.mac _), by simp⟩
  · exact ⟨[], .nothing, by simp⟩

/-- Every step appends to the history what `Records` lists (R101, R108). -/
theorem Moves.records {s t : State} (m : Moves s t) : ∃ added, Records added ∧ t.history = s.history ++ added := by
  cases m with
  | unscheduled empty => exact ⟨[], .nothing, by simp⟩
  | sequencerWaits => exact ⟨[], .nothing, by simp⟩
  | elapsed => exact ⟨[], .nothing, by simp⟩
  | @accepted rest w _ idle next begins =>
    obtain ⟨emitted, emits, history⟩ := beginCommand_emits begins
    exact ⟨.host (.issueCmd w) :: emitted, .move (by simp) emits, by simpa using history⟩
  | settleLeft next phase running passed =>
    obtain ⟨emitted, emits, history⟩ := leaveSettle_emits _ _
    exact ⟨_, .move (by simp) emits, history⟩
  | @answered rest a r _ next pending reacts =>
    obtain ⟨emitted, emits, history⟩ := reacts.emits
    exact ⟨.answer a :: emitted, .move (by simp) emits, by simpa using history⟩
  | _ => exact ⟨_, .move (by simp) .nothing, rfl⟩

/-- A bus request among what a step records has a wire format. -/
theorem Records.wireRequest {added : List Obs} (h : Records added) {r : BusReq} (hr : .request r ∈ added) :
    WireRequest r := by
  cases h with
  | nothing => simp at hr
  | move noRequest emits =>
    have hr := (List.mem_cons.1 hr).resolve_left fun he => noRequest r he.symm
    cases emits with
    | nothing => simp at hr
    | request wire =>
      obtain rfl : r = _ := by simpa using hr
      exact wire
    | settle d t0 => simp at hr

/-- A step records at most two observations, the second the BTF's own. -/
theorem Records.length_le {added : List Obs} (h : Records added) : added.length ≤ 2 := by
  cases h with
  | nothing => simp
  | move noRequest emits => cases emits <;> simp

/-- The first observation of a step is the move it is, never a bus request. -/
theorem Records.head_ne_request {added : List Obs} (h : Records added) (r : BusReq) (rest : List Obs) :
    added ≠ .request r :: rest := by
  cases h with
  | nothing => simp
  | move noRequest emits => exact fun he => noRequest r (List.head_eq_of_cons_eq he)

/-- Settles O54: a request that is new in the history was recorded by the step, so it has a wire format. -/
theorem busRequestsAreOfThreeForms : Obligations.BusRequestsAreOfThreeForms := by
  intro s t r hstep hr
  obtain ⟨added, records, history⟩ := (step_moves hstep).records
  rw [history, List.mem_append] at hr
  rcases hr with old | new
  · exact .inl old
  · cases records.wireRequest new with
    | mac data => exact .inr (.inl ⟨data, rfl⟩)
    | trailer cs len => exact .inr (.inr (.inl ⟨cs, len, rfl⟩))
    | blockRead => exact .inr (.inr (.inr rfl))

/-- Settles O55, from what a step records. -/
theorem historyOnlyGrows : Obligations.HistoryOnlyGrows := by
  intro s t hstep
  obtain ⟨added, records, history⟩ := (step_moves hstep).records
  exact ⟨added, history, records.length_le, fun r1 r2 => records.head_ne_request r1 [.request r2]⟩

/-! ## The buffers' canonical form -/

/-- The three buffers are in canonical form (R80). -/
def CanonicalBuffers (s : State) : Prop := ∀ b, Memory.wf (s.memory b)

/-- The canonical form is about the three buffers, one by one. -/
theorem canonicalBuffers_iff {s : State} :
    CanonicalBuffers s ↔ Memory.wf s.dbuf ∧ Memory.wf s.out ∧ Memory.wf s.frame :=
  ⟨fun h => ⟨h .dbuf, h .out, h .frame⟩, fun ⟨dbuf, out, frame⟩ b => by cases b <;> assumption⟩

/-- What keeps DBUF and the output keeps the canonical form. -/
theorem CanonicalBuffers.of_keeps {s t : State} (h : CanonicalBuffers s) (dbuf : t.dbuf = s.dbuf)
    (output : KeepsOutput s t) : CanonicalBuffers t := by
  rw [canonicalBuffers_iff] at h ⊢
  rwa [dbuf, output.out, output.frame]

/-- A received frame is written to FRAME and, if valid, to OUT, both by writes of consecutive bytes. -/
theorem CanonicalBuffers.receiveFrame {s : State} (h : CanonicalBuffers s) (bytes : List Byte) :
    CanonicalBuffers (receiveFrame bytes s) := by
  rw [canonicalBuffers_iff] at h ⊢
  obtain ⟨dbuf, out, frame⟩ := h
  have framed : Memory.wf (s.frame.writeRange 0 bytes) := wf_writeRange frame 0 bytes
  rcases receiveFrame_cases bytes s with ⟨-, he⟩ | ⟨-, he⟩ | ⟨-, he⟩ <;> rw [he]
  · exact ⟨dbuf, wf_writeRange out 0 _, framed⟩
  · exact ⟨dbuf, out, framed⟩
  · exact ⟨dbuf, out, framed⟩

/-- A reaction to an answer keeps the canonical form: only a received frame writes a buffer. -/
theorem Reacts.canonicalBuffers {r : BusReq} {a : BusAnswer} {s t : State} (reacts : Reacts r a s t)
    (h : CanonicalBuffers s) : CanonicalBuffers t := by
  rcases reacts.keepsOutput_or_frame with output | ⟨-, bytes, -, -, rfl⟩
  · exact h.of_keeps reacts.keepsHostSide.1.dbuf output
  · exact h.receiveFrame bytes

/-- Every step keeps the canonical form, by the agent that moves. -/
theorem CanonicalBuffers.moves {s t : State} (h : CanonicalBuffers s) (m : Moves s t) : CanonicalBuffers t := by
  cases m with
  | accepted idle next begins =>
    obtain ⟨host, output⟩ := beginCommand_keeps begins
    exact h.of_keeps host.dbuf { output with }
  | dataWritten idle inside next =>
    obtain ⟨dbuf, out, frame⟩ := canonicalBuffers_iff.1 h
    exact canonicalBuffers_iff.2 ⟨wf_write dbuf _ _, out, frame⟩
  | reset next => exact CanonicalBuffers.of_keeps reset_canonical rfl ⟨rfl, rfl, rfl⟩
  | settleLeft next phase running passed =>
    obtain ⟨host, output, -⟩ := leaveSettle_keeps _ _
    exact h.of_keeps host.dbuf { output with }
  | answered next pending reacts => exact reacts.canonicalBuffers (h.of_keeps rfl ⟨rfl, rfl, rfl⟩)
  | _ => exact h.of_keeps rfl ⟨rfl, rfl, rfl⟩

/-- Settles O56, by the kind of step. -/
theorem stepKeepsCanonicalBuffers : Obligations.StepKeepsCanonicalBuffers :=
  fun _ _ h hstep => CanonicalBuffers.moves h (step_moves hstep)

end Sys2Proof.Machine
end

section
/-! PROOFS. The encoding of command words (spec 30_encoding.md R130-R141): a word is its five fields, a row of
the opcode table constrains each field on its own, and the legal words are the encodings. -/

namespace Sys2Proof

/-! ## A word is its fields -/

/-- Two words are equal exactly when their five fields are (R130). -/
theorem eq_iff_fields {v w : Word64} : v = w ↔ fieldOp v = fieldOp w ∧ fieldRsv v = fieldRsv w ∧
    fieldA v = fieldA w ∧ fieldB v = fieldB w ∧ fieldC v = fieldC w := by
  refine ⟨by rintro rfl; simp, fun ⟨hop, hrsv, ha, hb, hc⟩ => BitVec.eq_of_toNat_eq ?_⟩
  simp only [fieldOp, fieldRsv, fieldA, fieldB, fieldC, ← BitVec.toNat_inj, BitVec.extractLsb'_toNat,
    Nat.shiftRight_eq_div_pow] at hop hrsv ha hb hc
  omega

/-- A word with RSV = 0 is packed of its other fields. -/
theorem packWord_fields {w : Word64} (h : fieldRsv w = 0#8) :
    packWord (fieldOp w) (fieldA w) (fieldB w) (fieldC w) = w := by
  simp [eq_iff_fields, h]

@[simp] theorem fieldRsv_encode (i : Instr) : fieldRsv (encode i) = 0#8 := by simp [encode]

@[simp] theorem fieldOp_and (v w : Word64) : fieldOp (v &&& w) = fieldOp v &&& fieldOp w :=
  BitVec.extractLsb'_and
@[simp] theorem fieldRsv_and (v w : Word64) : fieldRsv (v &&& w) = fieldRsv v &&& fieldRsv w :=
  BitVec.extractLsb'_and
@[simp] theorem fieldA_and (v w : Word64) : fieldA (v &&& w) = fieldA v &&& fieldA w :=
  BitVec.extractLsb'_and
@[simp] theorem fieldB_and (v w : Word64) : fieldB (v &&& w) = fieldB v &&& fieldB w :=
  BitVec.extractLsb'_and
@[simp] theorem fieldC_and (v w : Word64) : fieldC (v &&& w) = fieldC v &&& fieldC w :=
  BitVec.extractLsb'_and

/-! ## The rows of the opcode table -/

/-- The reserved bits of the operand fields A, B and C in an opcode's row (R131-R133): all of a field the
command does not use, and the unused bits of a flag or of the delay class. -/
def Op.reserved : Op → Half × Half × Half
  | .macRead | .dfRead | .checksum | .sizeCheck => (0x0000#16, 0xFFFF#16, 0xFFFF#16)
  | .dfWrite | .unsealKey => (0x0000#16, 0x0000#16, 0xFFFF#16)
  | .macCmd => (0x0000#16, 0xFFFC#16, 0xFFFF#16)
  | .validate => (0xFFFF#16, 0xFFFF#16, 0xFFFF#16)
  | .addrCheck => (0x0000#16, 0x0000#16, 0x0000#16)
  | .composeWord => (0x0000#16, 0xFFFE#16, 0xFFFE#16)
  | .composeValue => (0x0000#16, 0x0000#16, 0xFFFE#16)
  | .composeDword => (0xFFFF#16, 0xFFFF#16, 0xFFFE#16)

/-- The row's mask tests exactly the reserved bits of the operand fields. -/
theorem operandFields_mask (op : Op) : (fieldA op.mask, fieldB op.mask, fieldC op.mask) = op.reserved := by
  cases op <;> rfl

@[simp] theorem fieldA_mask (op : Op) : fieldA op.mask = op.reserved.1 :=
  congrArg Prod.fst (operandFields_mask op)
@[simp] theorem fieldB_mask (op : Op) : fieldB op.mask = op.reserved.2.1 :=
  congrArg (fun fields => fields.2.1) (operandFields_mask op)
@[simp] theorem fieldC_mask (op : Op) : fieldC op.mask = op.reserved.2.2 :=
  congrArg (fun fields => fields.2.2) (operandFields_mask op)

/-- Every row tests the whole of OP and RSV (R133). -/
@[simp] theorem fieldOp_mask (op : Op) : fieldOp op.mask = 0xFF#8 := by cases op <;> rfl
@[simp] theorem fieldRsv_mask (op : Op) : fieldRsv op.mask = 0xFF#8 := by cases op <;> rfl

/-- A mask with every bit set keeps the field it masks. -/
@[simp] theorem and_fullByte (a : Byte) : a &&& 0xFF#8 = a := BitVec.and_allOnes
@[simp] theorem and_fullHalf (a : Half) : a &&& 0xFFFF#16 = a := BitVec.and_allOnes

/-- The match word of a row is its OP value with every other field 0 (R133). -/
theorem matchWord_eq_packWord (op : Op) : op.matchWord = packWord op.code 0#16 0#16 0#16 := by
  simp [Op.matchWord, packWord]

/-- The operand fields set no reserved bit of an opcode's row (R133). -/
def OperandsFit (op : Op) (a b c : Half) : Prop :=
  a &&& op.reserved.1 = 0#16 ∧ b &&& op.reserved.2.1 = 0#16 ∧ c &&& op.reserved.2.2 = 0#16

/-- A word is of an opcode's row exactly when each of its fields is. -/
theorem and_mask_eq_matchWord_iff {w : Word64} {op : Op} : w &&& op.mask = op.matchWord ↔
    fieldOp w = op.code ∧ fieldRsv w = 0#8 ∧ OperandsFit op (fieldA w) (fieldB w) (fieldC w) := by
  simp [matchWord_eq_packWord, eq_iff_fields, OperandsFit]

/-- The well-formed commands are those whose operands set no reserved bit of their opcode's row. -/
theorem wellFormed_iff_operandsFit (i : Instr) :
    i.wellFormed = true ↔ OperandsFit i.op i.operandA i.operandB i.operandC := by
  cases i <;> simp [OperandsFit, Op.reserved, Instr.wellFormed, flagFieldOk, classFieldOk, Instr.op,
    Instr.operandA, Instr.operandB, Instr.operandC]

/-- Fields without a reserved bit are the operands of the command they spell: a field the command does not
use is reserved whole, so it is 0. -/
theorem operands_instrOfFields {op : Op} {a b c : Half} (fit : OperandsFit op a b c) :
    (instrOfFields a b c op).op = op ∧ (instrOfFields a b c op).operandA = a ∧
      (instrOfFields a b c op).operandB = b ∧ (instrOfFields a b c op).operandC = c := by
  obtain ⟨hA, hB, hC⟩ := fit
  cases op
  all_goals
    simp only [Op.reserved, and_fullHalf] at hA hB hC
    simp [instrOfFields, Instr.op, Instr.operandA, Instr.operandB, Instr.operandC, hA, hB, hC]

theorem wellFormed_instrOfFields {op : Op} {a b c : Half} (fit : OperandsFit op a b c) :
    (instrOfFields a b c op).wellFormed = true := by
  obtain ⟨hop, ha, hb, hc⟩ := operands_instrOfFields fit
  rwa [wellFormed_iff_operandsFit, hop, ha, hb, hc]

theorem encode_instrOfFields {op : Op} {a b c : Half} (fit : OperandsFit op a b c) :
    encode (instrOfFields a b c op) = packWord op.code a b c := by
  obtain ⟨hop, ha, hb, hc⟩ := operands_instrOfFields fit
  rw [encode, hop, ha, hb, hc]

/-- Every command is spelled by its opcode and its operands, constructor by constructor. -/
theorem fieldsSpell : ∀ i : Instr, Laws.FieldsSpell.Statement i
  | .macRead a => Laws.FieldsSpell.macRead a
  | .dfRead a => Laws.FieldsSpell.dfRead a
  | .dfWrite a b => Laws.FieldsSpell.dfWrite a b
  | .macCmd a b => Laws.FieldsSpell.macCmd a b
  | .unsealKey a b => Laws.FieldsSpell.unsealKey a b
  | .checksum a => Laws.FieldsSpell.checksum a
  | .validate => Laws.FieldsSpell.validate
  | .addrCheck a b c => Laws.FieldsSpell.addrCheck a b c
  | .sizeCheck a => Laws.FieldsSpell.sizeCheck a
  | .composeWord a b c => Laws.FieldsSpell.composeWord a b c
  | .composeValue a b c => Laws.FieldsSpell.composeValue a b c
  | .composeDword c => Laws.FieldsSpell.composeDword c

/-! ## The decoder -/

/-- The map names an opcode by its OP value and no other (R132). -/
theorem opOfCode_eq_some_iff {b : Byte} {op : Op} : opOfCode b = some op ↔ b = op.code := by
  refine ⟨fun h => ?_, by rintro rfl; simp⟩
  have found := List.find?_some h
  exact (beq_iff_eq.1 found).symm

/-- The map names no opcode exactly at the values it does not list (R132). -/
theorem opOfCode_eq_none_iff {b : Byte} : opOfCode b = none ↔
    b.toNat ∉ [0x01, 0x02, 0x03, 0x04, 0x05, 0x10, 0x11, 0x18, 0x19, 0x20, 0x21, 0x22] := by
  have codes : [0x01, 0x02, 0x03, 0x04, 0x05, 0x10, 0x11, 0x18, 0x19, 0x20, 0x21, 0x22] =
      Op.all.map fun op => op.code.toNat := rfl
  simp [codes, opOfCode, List.find?_eq_none, BitVec.toNat_inj]

/-- What the decoder answers with a command: a word of the row of its opcode. -/
theorem decode_eq_command_iff {w : Word64} {i : Instr} : decode w = .command i ↔
    ∃ op, fieldOp w = op.code ∧ fieldRsv w = 0#8 ∧ OperandsFit op (fieldA w) (fieldB w) (fieldC w) ∧
      instrOfFields (fieldA w) (fieldB w) (fieldC w) op = i := by
  constructor
  · intro h
    unfold decode at h
    split at h
    · cases h
    · next op _ =>
      split_ifs at h with row
      obtain ⟨hop, hrsv, fit⟩ := and_mask_eq_matchWord_iff.1 row
      cases h; exact ⟨op, hop, hrsv, fit, rfl⟩
  · rintro ⟨op, hop, hrsv, fit, rfl⟩
    have row : w &&& op.mask = op.matchWord := and_mask_eq_matchWord_iff.2 ⟨hop, hrsv, fit⟩
    simp [decode, opOfCode_eq_some_iff.2 hop, row]

/-- The decoder answers OPCODE exactly when the map does not list OP, whatever the reserved bits are
(R140). -/
theorem decode_eq_opcode_iff {w : Word64} : decode w = .illegal .opcode ↔ opOfCode (fieldOp w) = none := by
  unfold decode
  split
  · next h => simp [h]
  · next op h => split_ifs <;> simp [h]

/-- RESERVED is what is left: neither OPCODE nor a command. -/
theorem decode_eq_reserved_iff {w : Word64} : decode w = .illegal .reserved ↔
    decode w ≠ .illegal .opcode ∧ ∀ i, decode w ≠ .command i := by
  cases decode w with
  | command i => simp
  | illegal why => cases why <;> simp

/-! ## The statements -/

/-- Settles O1: the fields of the encoded command are its opcode and operands, which fit its row and spell
it. -/
theorem decodeEncodeAgree : Obligations.DecodeEncodeAgree := by
  intro i wellFormed
  have fit : OperandsFit i.op i.operandA i.operandB i.operandC := (wellFormed_iff_operandsFit i).1 wellFormed
  refine decode_eq_command_iff.2 ⟨i.op, fieldOp_encode i, fieldRsv_encode i, ?_⟩
  rw [fieldA_encode, fieldB_encode, fieldC_encode]
  exact ⟨fit, fieldsSpell i⟩

/-- Settles O2: a word of a row is packed of its fields, and they are the operands of the command they
spell; the other way is O1. -/
theorem legalWordsAreEncodings : Obligations.LegalWordsAreEncodings := by
  intro w i
  constructor
  · intro h
    obtain ⟨op, hop, hrsv, fit, rfl⟩ := decode_eq_command_iff.1 h
    refine ⟨wellFormed_instrOfFields fit, ?_⟩
    rw [encode_instrOfFields fit, ← hop, packWord_fields hrsv]
  · rintro ⟨wellFormed, rfl⟩
    exact decodeEncodeAgree i wellFormed

/-- Settles O3: OPCODE is the map's answer to the low byte, and RESERVED is what is neither that nor an
encoding. -/
theorem illegalWordReasons : Obligations.IllegalWordReasons := by
  intro w
  have low : (fieldOp w).toNat = w.toNat % 256 := by simp [fieldOp]
  have opcode := (decode_eq_opcode_iff (w := w)).trans opOfCode_eq_none_iff
  rw [low] at opcode
  refine ⟨opcode, ?_⟩
  rw [decode_eq_reserved_iff, Ne, opcode, not_not]
  refine and_congr_right' (forall_congr' fun i => ?_)
  rw [Ne, legalWordsAreEncodings w i, not_and]

/-- Settles O4: each word is the encoding of the command it spells. -/
theorem sampleWordsDecode : Obligations.SampleWordsDecode := by
  refine ⟨?_, ?_, ?_, ?_, ?_, ?_, ?_, ?_⟩ <;> exact (legalWordsAreEncodings _ _).2 ⟨rfl, rfl⟩

end Sys2Proof

namespace Sys2Proof.Machine

/-- Settles O9: an idle BTF accepts the word (O7), and its reason is raised in the same step; the two example
words of R141 decode to their reasons. -/
theorem illegalCommandEndsAtOnce : Obligations.IllegalCommandEndsAtOnce := by
  refine ⟨fun s w why rest hs idle hd => ?_, (illegalWordReasons _).1.2 (by decide), by decide⟩
  obtain ⟨accepted, -⟩ := issueCmdAcceptsOrDrops.1 s w rest hs
  rw [accepted idle, hd]
  cases why <;> rfl

end Sys2Proof.Machine
end

section
/-! PROOFS. The pure commands at acceptance (spec 30_encoding.md R142). -/

namespace Sys2Proof.Machine

/-- No pure command begins with a command write. -/
theorem not_pure_of_commandWriteOf {i : Instr} {a : Half} (h : commandWriteOf i = some a) :
    i.op.pure = false := by
  cases i <;> simp [commandWriteOf, blockReadOf, Instr.op, Op.pure] at h ⊢

/-- A pure command ends in its accepting step, with an error or with its RESULT (R142, R51). -/
theorem Begins.ends_of_pure {i : Instr} {s t : State} (h : Begins i s t) (hi : i.op.pure = true) :
    (∃ c, t = s.raise c) ∨ ∃ v, t = s.completeWith v := by
  cases h with
  | codecError pure row => exact .inl ⟨_, rfl⟩
  | result pure => exact .inr ⟨_, rfl⟩
  | gateClosed transport row => simp [hi] at transport
  | commandWrite sub => simp [not_pure_of_commandWriteOf sub] at hi
  | payloadWrite dfWrite addr size length holds => subst dfWrite; cases hi
  | keyWrite keys => subst keys; cases hi

/-- Settles O35: an error keeps RESULT, and a success has the code OK. -/
theorem pureCommandFrame : Obligations.PureCommandFrame := by
  intro i s t hi hexec
  rcases (exec_begins hexec).ends_of_pure hi with ⟨c, rfl⟩ | ⟨v, rfl⟩
  · exact ⟨rfl, fun _ => rfl⟩
  · exact ⟨rfl, fun failed => absurd rfl failed⟩

end Sys2Proof.Machine
end

section
/-! PROOFS. The host's read helpers (spec 30_encoding.md R150-R152): how a helper goes on past each
completed command, and what the value of each takes from the state. -/

namespace Sys2Proof.Machine

/-! ## The moves of a helper -/

/-- A command succeeded when it is DONE with the code OK. -/
theorem succeeded_iff {s : State} : succeeded s = true ↔ s.done = true ∧ s.code = .ok := by
  simp [succeeded]

section
variable {α : Type} {now : List AsmLine} {rest : Helper α} {take : State → Option α} {s t : State}
  {more : List State}

/-- Lines whose command failed end the helper; past a success it goes on in the state of the completion. -/
theorem move_lines_failed (h : ¬(t.done = true ∧ t.code = .ok)) :
    (Helper.lines now rest).move s (t :: more) = .failed := by
  rw [Helper.move, if_neg (mt succeeded_iff.1 h)]

theorem move_lines_succeeded (h : t.done = true ∧ t.code = .ok) :
    (Helper.lines now rest).move s (t :: more) = rest.move t more := by
  rw [Helper.move, if_pos (succeeded_iff.2 h)]

/-- At its end the helper yields what it takes from the state, or fails. -/
theorem move_value_some {a : α} (h : take s = some a) : (Helper.value take).move s more = .value a := by
  simp [Helper.move, h]

theorem move_value_none (h : take s = none) : (Helper.value take).move s more = .failed := by
  simp [Helper.move, h]

end

/-- Reading the indices of bytes that stand there yields the bytes. -/
theorem mapM_read_of_holds {m : Memory} {i : Nat} {bytes : List Byte} (h : Holds m i bytes) :
    (List.range bytes.length).mapM (fun k => Memory.read m (i + k)) = some bytes := by
  induction bytes generalizing i with
  | nil => rfl
  | cons b bs ih =>
    have head : Memory.read m i = some b := h 0 (Nat.succ_pos _)
    have tail : Holds m (i + 1) bs := fun k hk => by
      simpa [Nat.add_assoc, Nat.add_comm 1] using h (k + 1) (Nat.succ_lt_succ hk)
    have shift : (fun k => Memory.read m (i + k)) ∘ Nat.succ = fun k => Memory.read m (i + 1 + k) := by
      funext k; simp [Nat.add_comm, Nat.add_left_comm]
    simp [List.range_succ_eq_map, List.mapM_cons, List.mapM_map, shift, ih tail, head]

/-! ## What each helper yields after its last command -/

section
variable {addr : Half} {s read word : State} (ok : read.done = true ∧ read.code = .ok)
include ok

/-- DF_READ_BYTE fails on an empty payload and yields OUT[0] otherwise (R150). -/
theorem dfReadByte_empty (h : read.outLen = 0#8) : (dfReadByte addr).move s [read] = .failed := by
  rw [dfReadByte, move_lines_succeeded ok, move_value_none (by simp [h])]

theorem dfReadByte_value {v : Byte} (h : 1 ≤ read.outLen.toNat)
    (hv : Memory.read read.out 0 = some v) : (dfReadByte addr).move s [read] = .value v := by
  rw [dfReadByte, move_lines_succeeded ok, move_value_some (by rw [if_pos h, hv])]

/-- DF_READ_STRING fails on an empty payload and on one too short for its length byte, and yields the
characters otherwise (R152). -/
theorem dfReadString_empty (h : read.outLen = 0#8) : (dfReadString addr).move s [read] = .failed := by
  rw [dfReadString, move_lines_succeeded ok, move_value_none (by simp [h])]

theorem dfReadString_short {n : Byte} (h : 1 ≤ read.outLen.toNat)
    (hn : Memory.read read.out 0 = some n) (short : read.outLen.toNat < 1 + n.toNat) :
    (dfReadString addr).move s [read] = .failed := by
  rw [dfReadString, move_lines_succeeded ok, move_value_none]
  rw [if_pos h, hn, Option.bind_some, if_neg (Nat.not_le.2 short)]

theorem dfReadString_value {n : Byte} (h : 1 ≤ read.outLen.toNat)
    (hn : Memory.read read.out 0 = some n) (room : 1 + n.toNat ≤ read.outLen.toNat) {chars : List Byte}
    (length : chars.length = n.toNat) (holds : Holds read.out 1 chars) :
    (dfReadString addr).move s [read] = .value chars := by
  rw [dfReadString, move_lines_succeeded ok, move_value_some]
  rw [if_pos h, hn, Option.bind_some, if_pos room, ← length, mapM_read_of_holds holds]

/-- DF_READ_WORD goes on with COMPOSE_WORD, whatever OUT_LEN is (R151, notes/assumptions/14.md). -/
theorem dfReadWord_composes :
    (dfReadWord addr).move s [read] = .issue [.command (.composeWord 0#16 1#16 1#16)] := by
  rw [dfReadWord, move_lines_succeeded ok]; rfl

/-- After COMPOSE_WORD it fails for OUT_LEN below 2 and yields RESULT[15:0] otherwise (R151). -/
theorem dfReadWord_short (wordOk : word.done = true ∧ word.code = .ok)
    (h : word.outLen.toNat < 2) : (dfReadWord addr).move s [read, word] = .failed := by
  rw [dfReadWord, move_lines_succeeded ok, move_lines_succeeded wordOk,
    move_value_none (if_neg (Nat.not_le.2 h))]

theorem dfReadWord_value (wordOk : word.done = true ∧ word.code = .ok)
    (h : 2 ≤ word.outLen.toNat) :
    (dfReadWord addr).move s [read, word] = .value (word.result.setWidth 16) := by
  rw [dfReadWord, move_lines_succeeded ok, move_lines_succeeded wordOk, move_value_some (if_pos h),
    BitVec.setWidth_eq_extractLsb' (by omega)]

end

/-- Settles O60: a helper stops at the first command that failed, and past them the values are those of the
three helpers. -/
theorem readHelpersStopAtFirstFailure : Obligations.ReadHelpersStopAtFirstFailure := by
  intro addr s read word more readLines failed
  refine ⟨rfl, rfl, rfl, fun h => ⟨move_lines_failed h, move_lines_failed h, move_lines_failed h⟩,
    fun h => ?_⟩
  have ok : read.done = true ∧ read.code = .ok := not_not.1 h
  refine ⟨fun empty => ⟨dfReadByte_empty ok empty, dfReadString_empty ok empty⟩,
    fun v nonempty hv => ⟨dfReadByte_value ok nonempty hv, dfReadString_short ok nonempty hv,
      fun chars room length holds => dfReadString_value ok nonempty hv room length holds⟩,
    dfReadWord_composes ok, fun hword => ?_, fun hword => ?_⟩
  · exact (move_lines_succeeded ok).trans (move_lines_failed hword)
  · have wordOk : word.done = true ∧ word.code = .ok := not_not.1 hword
    exact ⟨dfReadWord_short ok wordOk, dfReadWord_value ok wordOk⟩

end Sys2Proof.Machine
end

section
/-! PROOFS. The codec unit (spec 40_codec.md R160-R166): the command word of each COMPOSE command from its
fields, its errors in their order, and RESULT from the bytes. -/

namespace Sys2Proof

/-! ## Numbers from parts -/

/-- Joining a part of `n` bits and a part shifted past it adds them. -/
theorem ofNat_or_shiftLeft {w n low : Nat} (high : Nat) (h : low < 2 ^ n) :
    BitVec.ofNat w low ||| BitVec.ofNat w high <<< n = BitVec.ofNat w (low + 2 ^ n * high) := by
  have shift : BitVec.ofNat w high <<< n = BitVec.ofNat w (2 ^ n * high) :=
    BitVec.eq_of_toNat_eq (by simp [Nat.shiftLeft_eq, Nat.mul_comm])
  rw [shift, ← BitVec.ofNat_or, Nat.or_comm, ← Nat.two_pow_add_eq_or_of_lt h, Nat.add_comm]

/-- A command word is the number its fields spell at their positions (R130). -/
theorem packWord_eq_ofNat (op : Byte) (a b c : Half) : packWord op a b c =
    BitVec.ofNat 64 (op.toNat + 2 ^ 16 * a.toNat + 2 ^ 32 * b.toNat + 2 ^ 48 * c.toNat) := by
  have hop : op.toNat < 2 ^ 8 := op.isLt
  have ha : a.toNat < 2 ^ 16 := a.isLt
  have hb : b.toNat < 2 ^ 16 := b.isLt
  simp only [packWord, ← BitVec.ofNat_toNat]
  rw [ofNat_or_shiftLeft a.toNat (by omega), ofNat_or_shiftLeft b.toNat (by omega),
    ofNat_or_shiftLeft c.toNat (by omega)]

/-- A flag field without a reserved bit is 0 or 1 (R131). -/
theorem flagFieldOk_iff {f : Half} : flagFieldOk f = true ↔ f.toNat ≤ 1 := by
  rw [flagFieldOk, beq_iff_eq]
  constructor
  · intro reserved
    have onlyFlag : f = f &&& 1#16 := calc
      f = f &&& (0xFFFE#16 ||| 1#16) := BitVec.and_allOnes.symm
      _ = f &&& 1#16 := by rw [BitVec.and_or_distrib_left, reserved, BitVec.zero_or]
    rw [onlyFlag]
    exact Nat.and_le_right
  · intro h
    have bit : f = 0#16 ∨ f = 1#16 := by bv_omega
    rcases bit with rfl | rfl <;> rfl

end Sys2Proof

namespace Sys2Proof.Machine

open Sys2Proof.Config

/-! ## The value of a byte sequence -/

/-- The value composed of a byte sequence is the little-endian number it spells (R162). -/
theorem littleEndianValue_eq_ofNat (bytes : List Byte) :
    littleEndianValue bytes = BitVec.ofNat 32 (leNat bytes) := by
  induction bytes with
  | nil => rfl
  | cons b bytes ih =>
    rw [littleEndianValue_cons, ih, ← BitVec.ofNat_toNat, ofNat_or_shiftLeft _ b.isLt]
    rfl

/-- The value of COMPOSE_WORD as a number (R161). -/
theorem composeBytes_eq_ofNat (hi lo : Byte) :
    composeBytes hi lo = BitVec.ofNat 32 (256 * hi.toNat + lo.toNat) := by
  rw [composeBytes_eq_littleEndianValue, littleEndianValue_eq_ofNat, Nat.add_comm]
  rfl

/-- The two bytes of a `u16` compose to it (R166). -/
theorem composeBytes_hi8_lo8 (v : Half) : composeBytes (hi8 v) (lo8 v) = v.setWidth 32 := by
  have hlo : (lo8 v).toNat = v.toNat % 256 := by simp [lo8]
  have hhi : (hi8 v).toNat = v.toNat / 256 := by
    have := v.isLt
    simp only [hi8, BitVec.extractLsb'_toNat, Nat.shiftRight_eq_div_pow]
    omega
  rw [composeBytes_eq_ofNat, hlo, hhi, Nat.div_add_mod, BitVec.ofNat_toNat]

/-- The number of a concatenation. -/
theorem toNat_append_eq_add {m n : Nat} (high : BitVec m) (low : BitVec n) :
    (high ++ low).toNat = low.toNat + 2 ^ n * high.toNat := by
  rw [BitVec.toNat_append, ← Nat.shiftLeft_add_eq_or_of_lt low.isLt, Nat.shiftLeft_eq, Nat.mul_comm,
    Nat.add_comm]

/-- The value of four bytes has them as its bytes, the first the least significant (R164). -/
theorem littleEndianValue_four (b0 b1 b2 b3 : Byte) :
    littleEndianValue [b0, b1, b2, b3] = b3 ++ b2 ++ b1 ++ b0 := by
  have spelled : leNat [b0, b1, b2, b3] = (b3 ++ b2 ++ b1 ++ b0).toNat := by
    simp only [leNat, toNat_append_eq_add]
    omega
  rw [littleEndianValue_eq_ofNat, spelled, BitVec.ofNat_toNat]
  exact BitVec.setWidth_eq _

/-! ## composeValue and composeWord, case by case -/

section
variable {b : Buf} {first last i j : Nat} {s : State}

theorem composeValueOf_order (h : last ≤ first) : composeValueOf b first last s = .next (s.raise .order) :=
  if_pos h

theorem composeValueOf_span (h : first + 3 < last) :
    composeValueOf b first last s = .next (s.raise .span) := by
  rw [composeValueOf, if_neg (by omega), if_pos (by omega)]

theorem composeValueOf_beyond (order : first < last) (span : last ≤ first + 3) (h : b.size ≤ last) :
    composeValueOf b first last s = .next (s.raise .beyond) := by
  rw [composeValueOf, if_neg (by omega), if_neg (by omega), if_pos h]

theorem composeValueOf_value {bytes : List Byte} (order : first < last) (span : last ≤ first + 3)
    (room : last < b.size) (length : bytes.length = last - first + 1)
    (holds : Holds (s.memory b) first bytes) :
    composeValueOf b first last s = .next (s.completeWith (littleEndianValue bytes)) := by
  rw [composeValueOf, if_neg (by omega), if_neg (by omega), if_neg (by omega),
    readRange_eq_next.2 ⟨length, holds⟩, andThen_next]

theorem composeWordOf_beyond (h : b.size ≤ i ∨ b.size ≤ j) :
    composeWordOf b i j s = .next (s.raise .beyond) := if_pos h

theorem composeWordOf_value {lo hi : Byte} (low : i < b.size) (high : j < b.size)
    (hlo : Memory.read (s.memory b) i = some lo) (hhi : Memory.read (s.memory b) j = some hi) :
    composeWordOf b i j s = .next (s.completeWith (composeBytes hi lo)) := by
  rw [composeWordOf, if_neg (by omega), readBuf_eq_next.2 hlo, andThen_next, readBuf_eq_next.2 hhi,
    andThen_next]

end

/-! ## COMPOSE_WORD -/

/-- The byte order of COMPOSE_WORD puts the high byte at `j`: after the low byte, or before it (R161). -/
def HighByteAt (i le : Half) (j : Nat) : Prop :=
  (le.getLsbD 0 = true ∧ j = i.toNat + 1) ∨ (le.getLsbD 0 = false ∧ i.toNat = j + 1)

/-- COMPOSE_WORD with a high byte's index composes the two bytes. -/
theorem exec_composeWord {i le bsel : Half} {j : Nat} {s : State} (order : HighByteAt i le j) :
    exec (.composeWord i le bsel) s = composeWordOf (selectBuf bsel) i.toNat j s := by
  rw [exec, execComposeWord]
  rcases order with ⟨little, rfl⟩ | ⟨big, hij⟩
  · exact if_pos little
  · rw [if_neg (by rw [flagOf, big]; decide), if_neg (by omega), hij, Nat.add_sub_cancel]

/-- Big-endian, the byte at index 0 has no byte before it (R161). -/
theorem exec_composeWord_negIndex {i le bsel : Half} {s : State} (big : le.getLsbD 0 = false)
    (h : i.toNat = 0) : exec (.composeWord i le bsel) s = .next (s.raise .negIndex) := by
  rw [exec, execComposeWord, if_neg (by rw [flagOf, big]; decide), if_pos h]

/-- Settles O27: the errors are told by the two indices, and past them both bytes are read. -/
theorem composeWordResult : Obligations.ComposeWordResult := by
  intro i le bsel s b size
  have hsize : (selectBuf bsel).size = size := size_selectBuf bsel
  have min : 32 ≤ size := hsize ▸ le_size_selectBuf bsel
  refine ⟨packWord_eq_ofNat _ i le bsel, ?wellFormed, ?negIndex, ?beyond, ?value⟩
  case wellFormed => rw [Instr.wellFormed, Bool.and_eq_true, flagFieldOk_iff, flagFieldOk_iff]
  case negIndex => exact fun big h => exec_composeWord_negIndex big h
  case beyond =>
    rintro (⟨little, h⟩ | ⟨big, h⟩)
    · exact (exec_composeWord (.inl ⟨little, rfl⟩)).trans (composeWordOf_beyond (.inr (hsize ▸ h)))
    · have before : i.toNat = i.toNat - 1 + 1 := by omega
      exact (exec_composeWord (.inr ⟨big, before⟩)).trans (composeWordOf_beyond (.inl (hsize ▸ h)))
  case value =>
    intro j lo hi order low high hlo hhi
    rw [exec_composeWord order, ← composeBytes_eq_ofNat]
    exact composeWordOf_value (hsize ▸ low) (hsize ▸ high) hlo hhi

/-- Settles O30: little-endian with room, the word is composed of the `u16`'s own two bytes. -/
theorem composeWordRoundTrip : Obligations.ComposeWordRoundTrip := by
  intro v i bsel s b size room holds
  have hsize : (selectBuf bsel).size = size := size_selectBuf bsel
  have run : exec (.composeWord i 1#16 bsel) s = .next (s.completeWith (v.setWidth 32)) := by
    rw [exec_composeWord (.inl ⟨rfl, rfl⟩), ← composeBytes_hi8_lo8]
    exact composeWordOf_value (by omega) (by omega) (holds 0 Nat.zero_lt_two) (holds 1 Nat.one_lt_two)
  exact ⟨_, run, rfl, rfl⟩

/-! ## COMPOSE_VALUE and COMPOSE_DWORD -/

/-- Settles O28: the clauses are the branches of composeValue, in its order (R162). -/
theorem composeValueResult : Obligations.ComposeValueResult := by
  intro f l bsel s b size
  have hsize : (selectBuf bsel).size = size := size_selectBuf bsel
  refine ⟨packWord_eq_ofNat _ f l bsel, flagFieldOk_iff, ?order, ?span, ?beyond, ?value⟩
  case order => exact fun h => composeValueOf_order h
  case span => exact fun h => composeValueOf_span h
  case beyond => exact fun order span h => composeValueOf_beyond order span (hsize ▸ h)
  case value =>
    intro bytes order span room length holds
    rw [← littleEndianValue_eq_ofNat]
    exact composeValueOf_value order span (hsize ▸ room) length holds

/-- Settles O29: COMPOSE_DWORD is composeValue of the indices 0 to 3, which both buffers have (R164). -/
theorem composeDwordResult : Obligations.ComposeDwordResult := by
  intro bsel s b0 b1 b2 b3 b
  have room : 3 < (selectBuf bsel).size := le_trans (by decide) (le_size_selectBuf bsel)
  refine ⟨packWord_eq_ofNat _ 0#16 0#16 bsel, flagFieldOk_iff, fun holds => ?_⟩
  rw [← littleEndianValue_four]
  exact composeValueOf_value (by decide) (by decide) room rfl holds

end Sys2Proof.Machine
end

section
/-! PROOFS. The validator unit (spec 41_validator.md R180-R186): the checksum and the validity sum in the
arithmetic of bytes, each verdict of validate as a condition, and the commands CHECKSUM and VALIDATE. -/

namespace Sys2Proof.Machine

open Sys2Proof.Config

/-! ## Sums of bytes -/

theorem byteSum_eq_sum (data : List Byte) : byteSum data = (data.map BitVec.toNat).sum := by
  induction data with
  | nil => rfl
  | cons b data ih => rw [byteSum, ih, List.map_cons, List.sum_cons]

theorem byteSum_replicate_zero (n : Nat) : byteSum (List.replicate n 0#8) = 0 := by
  simp [byteSum_eq_sum]

/-- As a number the checksum is what the truncated sum lacks of 255 (R180). -/
theorem toNat_checksum (data : List Byte) (len : Nat) :
    (checksum data len).toNat = 255 - byteSum (data.take len) % 256 := by
  simp [checksum, trunc8]

/-- As a number the validity sum is the sum modulo 256 (R181). -/
theorem toNat_validitySum (cks : Byte) (covered : List Byte) :
    (validitySum cks covered).toNat = (cks.toNat + byteSum covered) % 256 := by
  simp [validitySum, trunc8]

/-- The validity sum is a sum of bytes, so the checksum byte can be solved for. -/
theorem validitySum_eq_add (cks : Byte) (covered : List Byte) :
    validitySum cks covered = cks + trunc8 (byteSum covered) := by
  rw [validitySum, trunc8, BitVec.ofNat_add, BitVec.ofNat_toNat, BitVec.setWidth_eq, trunc8]

/-- A checksum byte is rejected exactly when it is the negative of the covered bytes' sum (R183). -/
theorem validitySum_eq_zero_iff {cks : Byte} {covered : List Byte} :
    validitySum cks covered = 0#8 ↔ cks = -trunc8 (byteSum covered) := by
  rw [validitySum_eq_add]
  exact add_eq_zero_iff_eq_neg

/-- With the checksum of the covered bytes the validity sum is 0xFF (R180, R183). -/
theorem validitySum_checksum (data : List Byte) (len : Nat) :
    validitySum (checksum data len) (data.take len) = 0xFF#8 := by
  rw [validitySum_eq_add, checksum, BitVec.add_comm]
  exact BitVec.add_not_self _

/-- Settles O20: the three clauses are one equation of numbers. -/
theorem checksumComplementsSum : Obligations.ChecksumComplementsSum := by
  have complement : ∀ (data : List Byte) (len : Nat),
      (checksum data len).toNat = 255 - ((data.take len).map BitVec.toNat).sum % 256 :=
    fun data len => by rw [toNat_checksum, byteSum_eq_sum]
  refine ⟨complement, fun data => by rw [checksum, List.take_zero]; rfl, fun data len => ?_⟩
  rw [complement]
  omega

/-! ## The verdict -/

/-- The length test as a range of numbers (R182). -/
theorem lengthOk_iff {l : Byte} : lengthOk l = true ↔ 4 ≤ l.toNat ∧ l.toNat ≤ 36 := by
  simp [lengthOk]

/-- The bytes of a frame its validity sum covers, where the length byte is in range (R181). -/
def frameCovered (frame : List Byte) : List Byte := frame.take (coveredBytes (frameByte frame lengthIndex))

/-- The validity sum of a frame (R181). -/
def frameSum (frame : List Byte) : Byte := validitySum (frameByte frame checksumIndex) (frameCovered frame)

section
variable {frame : List Byte}

/-- The verdict is the length test, then the test of the validity sum (R182). -/
theorem validate_eq_ite : validate frame =
    if lengthOk (frameByte frame lengthIndex) then if frameSum frame = 0#8 then .sumZero else .valid
    else .badLength := rfl

theorem validate_eq_badLength_iff :
    validate frame = .badLength ↔ ¬lengthOk (frameByte frame lengthIndex) = true := by
  rw [validate_eq_ite]
  split_ifs <;> simp [*]

theorem validate_eq_sumZero_iff :
    validate frame = .sumZero ↔ lengthOk (frameByte frame lengthIndex) = true ∧ frameSum frame = 0#8 := by
  rw [validate_eq_ite]
  split_ifs <;> simp [*]

theorem validate_eq_valid_iff :
    validate frame = .valid ↔ lengthOk (frameByte frame lengthIndex) = true ∧ frameSum frame ≠ 0#8 := by
  rw [validate_eq_ite]
  split_ifs <;> simp [*]

end

/-- Settles O21: the conditions of the three verdicts, read as numbers. -/
theorem validateVerdict : Obligations.ValidateVerdict := by
  intro frame _ len sum
  have inRange : lengthOk (frameByte frame lengthIndex) = true ↔ 4 ≤ len ∧ len ≤ 36 := lengthOk_iff
  have sumIsZero : frameSum frame = 0#8 ↔ sum % 256 = 0 := by
    rw [← BitVec.toNat_inj, frameSum, toNat_validitySum, byteSum_eq_sum]
    rfl
  refine ⟨?_, ?_, ?_, rfl, rfl⟩
  · rw [validate_eq_badLength_iff, inRange]
  · rw [validate_eq_sumZero_iff, inRange, sumIsZero]
  · rw [validate_eq_valid_iff, inRange, Ne, sumIsZero]

/-! ## Frames that differ in the checksum byte -/

section
variable {frame : List Byte} {c : Byte}

theorem frameByte_set_checksum (whole : frame.length = 36) :
    frameByte (frame.set checksumIndex c) checksumIndex = c := by
  have inside : checksumIndex < frame.length := by rw [whole]; decide
  simp [frameByte, inside]

theorem frameByte_length_set_checksum :
    frameByte (frame.set checksumIndex c) lengthIndex = frameByte frame lengthIndex := by
  simp [frameByte]

/-- The covered bytes end before the checksum byte (R181). -/
theorem frameCovered_set_checksum (inRange : lengthOk (frameByte frame lengthIndex) = true) :
    frameCovered (frame.set checksumIndex c) = frameCovered frame := by
  have before : coveredBytes (frameByte frame lengthIndex) ≤ checksumIndex :=
    Nat.sub_le_sub_right (lengthOk_iff.1 inRange).2 2
  rw [frameCovered, frameByte_length_set_checksum, List.take_set_of_le before, frameCovered]

theorem frameSum_set_checksum (whole : frame.length = 36)
    (inRange : lengthOk (frameByte frame lengthIndex) = true) :
    frameSum (frame.set checksumIndex c) = validitySum c (frameCovered frame) := by
  rw [frameSum, frameByte_set_checksum whole, frameCovered_set_checksum inRange]

end

/-- Settles O22: the sum is 0 for the negative of the covered bytes' sum alone, and the complement gives
0xFF. -/
theorem oneChecksumByteRejected : Obligations.OneChecksumByteRejected := by
  intro frame whole hmin hmax
  have inRange : lengthOk (frameByte frame lengthIndex) = true := lengthOk_iff.2 ⟨hmin, hmax⟩
  have staysInRange (c : Byte) : lengthOk (frameByte (frame.set checksumIndex c) lengthIndex) = true := by
    rw [frameByte_length_set_checksum, inRange]
  have rejected (c : Byte) : validate (frame.set checksumIndex c) = .sumZero ↔
      c = -trunc8 (byteSum (frameCovered frame)) := by
    rw [validate_eq_sumZero_iff, frameSum_set_checksum whole inRange, validitySum_eq_zero_iff,
      and_iff_right (staysInRange c)]
  have correct : validitySum (checksum frame (coveredBytes (frameByte frame lengthIndex)))
      (frameCovered frame) = 0xFF#8 := validitySum_checksum frame _
  refine ⟨⟨_, (rejected _).2 rfl, fun c => (rejected c).1⟩,
    fun c badLength => validate_eq_badLength_iff.1 badLength (staysInRange c), ?valid, correct⟩
  refine validate_eq_valid_iff.2 ⟨staysInRange _, ?_⟩
  rw [frameSum_set_checksum whole inRange]
  exact correct.trans_ne (by decide)

/-! ## CHECKSUM -/

section
variable {n : Half} {s : State}

theorem exec_checksum_beyond (h : 36 < n.toNat) : exec (.checksum n) s = .next (s.raise .beyond) :=
  if_pos h

theorem exec_checksum_value {data : List Byte} (inside : n.toNat ≤ 36) (length : data.length = n.toNat)
    (holds : Holds s.dbuf 0 data) :
    exec (.checksum n) s = .next (s.completeWith ((checksum data n.toNat).setWidth 32)) := by
  have hdata : readRange .dbuf 0 n.toNat s = .next data := readRange_eq_next.2 ⟨length, holds⟩
  rw [exec, execChecksum, if_neg (Nat.not_lt.2 inside), hdata, andThen_next]

end

/-- Settles O24: BEYOND past the buffer, and else the checksum of all the bytes read. -/
theorem checksumCommandResult : Obligations.ChecksumCommandResult := by
  intro n s
  refine ⟨packWord_eq_ofNat _ n 0#16 0#16, rfl, fun h => exec_checksum_beyond h, ?value⟩
  intro data inside length holds
  have value : (checksum data n.toNat).setWidth 32 =
      BitVec.ofNat 32 (255 - (data.map BitVec.toNat).sum % 256) := by
    rw [← BitVec.ofNat_toNat, toNat_checksum, byteSum_eq_sum, List.take_of_length_le length.le]
  rw [← value]
  exact exec_checksum_value inside length holds

/-! ## VALIDATE -/

/-- What VALIDATE answers of the bytes of DBUF, once the length byte is known (R186). -/
inductive ValidateAnswers (dbuf : Memory) (l : Byte) : Word32 → Prop
  | outOfRange (length : ¬lengthOk l = true) : ValidateAnswers dbuf l (validateResult false 0#8)
  | inRange {cks : Byte} {covered : List Byte} (length : lengthOk l = true)
      (hcks : Memory.read dbuf checksumIndex = some cks) (count : covered.length = coveredBytes l)
      (holds : Holds dbuf 0 covered) : ValidateAnswers dbuf l (validateResult true (validitySum cks covered))

/-- VALIDATE completes with what `ValidateAnswers` says, and only with that. -/
theorem exec_validate_eq_next {l : Byte} {s t : State} (hl : Memory.read s.dbuf lengthIndex = some l) :
    exec .validate s = .next t ↔ ∃ v, ValidateAnswers s.dbuf l v ∧ t = s.completeWith v := by
  have hlen : readBuf .dbuf lengthIndex s = .next l := readBuf_eq_next.2 hl
  rw [exec, execValidate, hlen, andThen_next]
  constructor
  · intro run
    split_ifs at run with length
    · obtain ⟨cks, hcks, run⟩ := andThen_eq_next.1 run
      obtain ⟨covered, hcovered, run⟩ := andThen_eq_next.1 run
      obtain ⟨count, holds⟩ := readRange_eq_next.1 hcovered
      cases run
      exact ⟨_, .inRange length (readBuf_eq_next.1 hcks) count holds, rfl⟩
    · cases run
      exact ⟨_, .outOfRange length, rfl⟩
  · rintro ⟨v, answers, rfl⟩
    cases answers with
    | outOfRange length => exact if_neg length
    | @inRange cks covered length hcks count holds =>
      have checksumRead : readBuf .dbuf checksumIndex s = .next cks := readBuf_eq_next.2 hcks
      have coveredRead : readRange .dbuf 0 (coveredBytes l) s = .next covered :=
        readRange_eq_next.2 ⟨count, holds⟩
      rw [if_pos length, checksumRead, andThen_next, coveredRead, andThen_next]

/-- RESULT of a length in range as a number: the sum from bit 8 on, bit 1, and bit 0 for a non-zero sum. -/
theorem validateResult_true (sum : Byte) : validateResult true sum =
    BitVec.ofNat 32 (256 * sum.toNat + 2 + if sum.toNat = 0 then 0 else 1) := by
  by_cases zero : sum = 0#8
  · subst zero; rfl
  · have nonzero : sum.toNat ≠ 0 := fun h => zero (BitVec.eq_of_toNat_eq h)
    have bit : (sum != 0#8) = true := bne_iff_ne.2 zero
    calc validateResult true sum
      _ = sum.setWidth 32 <<< 8 ||| 2#32 ||| 1#32 := by simp [validateResult, bit]
      _ = 3#32 ||| BitVec.ofNat 32 sum.toNat <<< 8 := by
          rw [BitVec.or_assoc, BitVec.or_comm, BitVec.ofNat_toNat]; rfl
      _ = BitVec.ofNat 32 (3 + 2 ^ 8 * sum.toNat) := ofNat_or_shiftLeft _ (by decide)
      _ = _ := by rw [if_neg nonzero, Nat.add_comm]; rfl

/-- Settles O25: the two cases of `ValidateAnswers`, with RESULT read as a number. -/
theorem validateCommandResult : Obligations.ValidateCommandResult := by
  refine ⟨rfl, rfl, fun s l hl => ⟨fun outside => ?outOfRange, ?inRange⟩⟩
  case outOfRange =>
    exact (exec_validate_eq_next hl).2 ⟨_, .outOfRange (mt lengthOk_iff.1 outside), rfl⟩
  case inRange =>
    intro c covered hmin hmax hc count holds sum
    have hsum : (validitySum c covered).toNat = sum := by rw [toNat_validitySum, byteSum_eq_sum]
    rw [← hsum, ← validateResult_true]
    exact (exec_validate_eq_next hl).2 ⟨_, .inRange (lengthOk_iff.2 ⟨hmin, hmax⟩) hc count holds, rfl⟩

/-- The answer depends on the checksum byte and the covered bytes alone (R181). -/
theorem ValidateAnswers.of_agree {m m' : Memory} {l : Byte} {v : Word32} (h : ValidateAnswers m l v)
    (agree : ∀ k, k < coveredBytes l ∨ k = checksumIndex → Memory.read m k = Memory.read m' k) :
    ValidateAnswers m' l v := by
  cases h with
  | outOfRange length => exact .outOfRange length
  | inRange length hcks count holds =>
    refine .inRange length ((agree _ (.inr rfl)).symm.trans hcks) count fun k hk => ?_
    rw [← agree _ (.inl (by omega))]
    exact holds k hk

/-- Settles O26: both machines have the same length byte and the same answer. -/
theorem validateIgnoresPadding : Obligations.ValidateIgnoresPadding := by
  intro s1 s2 t1 l hl agree run
  obtain ⟨v, answers, rfl⟩ := (exec_validate_eq_next hl).1 run
  have hl2 : Memory.read s2.dbuf lengthIndex = some l := (agree 35 (.inr (.inr rfl))).symm.trans hl
  have same : ValidateAnswers s2.dbuf l v := answers.of_agree fun k hk => agree k (hk.imp_right .inl)
  exact ⟨_, (exec_validate_eq_next hl2).2 ⟨v, same, rfl⟩, rfl, rfl⟩

/-! ## A frame of zeros -/

/-- What a sealed device returns: zeros, with any length byte (R184). -/
def zeroFrame (l : Byte) : List Byte := List.replicate 35 0#8 ++ [l]

theorem frameByte_length_zeroFrame (l : Byte) : frameByte (zeroFrame l) lengthIndex = l := rfl

/-- Whatever of the zeros is covered, the sum is 0 (R184). -/
theorem frameSum_zeroFrame {l : Byte} (inRange : lengthOk l = true) : frameSum (zeroFrame l) = 0#8 := by
  have before : coveredBytes l ≤ (List.replicate 35 0#8).length :=
    (Nat.sub_le_sub_right (lengthOk_iff.1 inRange).2 2).trans (by decide)
  rw [frameSum, frameCovered, frameByte_length_zeroFrame, zeroFrame,
    List.take_append_of_le_length before, List.take_replicate, validitySum, byteSum_replicate_zero]
  rfl

theorem validate_zeroFrame (l : Byte) :
    validate (zeroFrame l) = if lengthOk l then .sumZero else .badLength := by
  split_ifs with inRange
  · exact validate_eq_sumZero_iff.2 ⟨inRange, frameSum_zeroFrame inRange⟩
  · exact validate_eq_badLength_iff.2 inRange

/-- The zeros are taken into FRAME and end the command, whatever the length byte (R184, 43_transport_read.md
R230). -/
theorem receiveFrame_zeroFrame (l : Byte) (s : State) : receiveFrame (zeroFrame l) s =
    State.raise (if lengthOk l then .sumZero else .length)
      { s with frame := s.frame.writeRange 0 (zeroFrame l) } := by
  rw [receiveFrame, validate_zeroFrame]
  split_ifs <;> rfl

/-- A 36-byte answer to the block read is received as a frame (43_transport_read.md R227). -/
theorem step_frameArrives {s : State} {r : BusReq} {bytes : List Byte} {rest : List Event}
    (phase : s.phase = .rBlk) (pending : s.pending = some r) (next : s.schedule = .answer (.ok bytes) :: rest)
    (whole : bytes.length = 36) : step s = .next (receiveFrame bytes
      (State.observe (.answer (.ok bytes)) { s with schedule := rest, pending := none })) := by
  rw [step_cons next]
  refine busAnswer_eq_next.2 ⟨r, pending, ?_⟩
  simp [react, phase, afterBlockRead, whole]

/-- Settles O44: the zeros end the command where they arrive, with a cause that its length byte tells. -/
theorem zeroFrameFailsRead : Obligations.ZeroFrameFailsRead := by
  intro s r l rest phase pending next
  have arrives := step_frameArrives (bytes := zeroFrame l) phase pending next rfl
  rw [receiveFrame_zeroFrame] at arrives
  refine ⟨_, arrives, ?code, rfl, rfl, rfl, rfl, ?lengthZero, ?lengthInRange⟩
  case code => rw [raise_code]; split_ifs <;> rfl
  case lengthZero => rintro rfl; rfl
  case lengthInRange =>
    intro hmin hmax
    rw [raise_detail, if_pos (lengthOk_iff.2 ⟨hmin, hmax⟩)]
    rfl

end Sys2Proof.Machine
end

section
/-! PROOFS. The gate unit (spec 42_gate.md R200-R214): the predicates' commands, and how each transport
command begins: the three ungated ones at once, the data-flash ones past the address gate and then the size
gate. -/

namespace Sys2Proof.Machine

/-! ## ADDR_CHECK and SIZE_CHECK -/

theorem isAddressValid_iff {addr lo hi : Half} :
    isAddressValid addr lo hi = true ↔ lo.toNat ≤ addr.toNat ∧ addr.toNat ≤ hi.toNat := by
  rw [isAddressValid, Bool.and_eq_true, decide_eq_true_iff, decide_eq_true_iff]

/-- RESULT of a predicate is told by whatever the predicate is equivalent to (R202, R203). -/
theorem truthValue_eq_ite {b : Bool} {p : Prop} [Decidable p] (h : b = true ↔ p) :
    truthValue b = if p then 1#32 else 0#32 := if_congr h rfl rfl

/-- Settles O18: RESULT is the truth value of the address predicate (R200). -/
theorem addrCheckResult : Obligations.AddrCheckResult := by
  intro addr lo hi s
  refine ⟨packWord_eq_ofNat _ addr lo hi, rfl, ?run⟩
  rw [← truthValue_eq_ite isAddressValid_iff]
  rfl

/-- Settles O19: RESULT is the truth value of the size predicate (R201). -/
theorem sizeCheckResult : Obligations.SizeCheckResult := by
  intro len s
  refine ⟨packWord_eq_ofNat _ len 0#16 0#16, rfl, ?run⟩
  rw [← truthValue_eq_ite isPayloadSizeValid_iff]
  rfl

/-! ## How the transport commands begin -/

section
variable {a b n : Half} {s : State}

theorem exec_macRead : exec (.macRead a) s = .next (s.issue .wCmd (commandWrite a)) := rfl

theorem exec_macCmd : exec (.macCmd a b) s = .next (s.issue .wCmd (commandWrite a)) := rfl

theorem exec_unsealKey : exec (.unsealKey a b) s = .next (s.issue .wKey1 (keyWrite a)) := rfl

theorem exec_dfRead_gated (addr : dataFlashGate a = true) :
    exec (.dfRead a) s = .next (s.issue .wCmd (commandWrite a)) := if_pos addr

theorem exec_dfRead_rangeAddr (addr : ¬dataFlashGate a = true) :
    exec (.dfRead a) s = .next (s.raise .rangeAddr) := if_neg addr

/-- The address gate comes first: it fails whatever the length is (R212). -/
theorem exec_dfWrite_rangeAddr (addr : ¬dataFlashGate a = true) :
    exec (.dfWrite a n) s = .next (s.raise .rangeAddr) := if_neg addr

theorem exec_dfWrite_rangeSize (addr : dataFlashGate a = true) (size : ¬isPayloadSizeValid n = true) :
    exec (.dfWrite a n) s = .next (s.raise .rangeSize) := by
  rw [exec, execDfWrite, if_pos addr, if_neg size]

theorem exec_dfWrite_gated {payload : List Byte} (addr : dataFlashGate a = true)
    (size : isPayloadSizeValid n = true) (length : payload.length = n.toNat) (holds : Holds s.dbuf 0 payload) :
    exec (.dfWrite a n) s = .next (s.issue .wPay (payloadWrite a payload)) := by
  have payloadRead : readRange .dbuf 0 n.toNat s = .next payload := readRange_eq_next.2 ⟨length, holds⟩
  rw [exec, execDfWrite, if_pos addr, if_pos size, payloadRead, andThen_next]

end

/-- Settles O32: the three commands have no gate (R213), and each issues its first write at once. -/
theorem ungatedCommandsBegin : Obligations.UngatedCommandsBegin :=
  fun _ _ _ => ⟨exec_macRead, exec_macCmd, exec_unsealKey⟩

/-- Settles O33: each clause is the first gate that fails, in the order address then size (R212). -/
theorem gatesEndBeforeTheBus : Obligations.GatesEndBeforeTheBus := by
  intro a n s
  refine ⟨fun outside => ?address, fun hmin hmax badSize => ?size⟩
  case address =>
    have addr : ¬dataFlashGate a = true := by rw [dataFlashGate_iff]; omega
    exact ⟨(exec_dfWrite_rangeAddr addr).trans (exec_dfRead_rangeAddr addr).symm, exec_dfRead_rangeAddr addr⟩
  case size =>
    have size : ¬isPayloadSizeValid n = true := by rw [isPayloadSizeValid_iff]; omega
    exact exec_dfWrite_rangeSize (dataFlashGate_iff.2 ⟨hmin, hmax⟩) size

/-- Settles O34: no gate fails, and the payload DF_WRITE sends is the one DBUF holds. The gate tests the
first address alone, so the payload may reach past the window's end (R214). -/
theorem dataFlashCommandsBegin : Obligations.DataFlashCommandsBegin := by
  intro a n s hmin hmax
  have addr : dataFlashGate a = true := dataFlashGate_iff.2 ⟨hmin, hmax⟩
  refine ⟨exec_dfRead_gated addr, fun payload one most length holds => ?write⟩
  exact exec_dfWrite_gated addr (isPayloadSizeValid_iff.2 ⟨one, most⟩) length holds

end Sys2Proof.Machine
end

section
/-! PROOFS. The block read after its acceptance (spec 43_transport_read.md R220-R231) and the answers to the
sequencer's bus requests: an answer is the reaction of its phase, each reaction to `ok` issues the next request,
enters SETTLE or ends the command, and a whole block read is the chain of these steps. -/

namespace Sys2Proof.Machine

open Sys2Proof.Config

/-! ## Steps of the sequencer's agents -/

/-- The state in which a phase reacts to an answer: the request is gone and the answer recorded (R33, R92). -/
def State.answered (a : BusAnswer) (rest : List Event) (s : State) : State :=
  State.observe (.answer a) { s with schedule := rest, pending := none }

section
variable {s : State} {r : BusReq} {a : BusAnswer} {b : List Byte} {rest : List Event}

theorem step_answer (pending : s.pending = some r) (next : s.schedule = .answer a :: rest) :
    step s = react r a (s.answered a rest) := by
  rw [step_cons next, agentStep, busAnswer, pending]
  rfl

theorem step_elapse {ms : Nat} (next : s.schedule = .elapse ms :: rest) :
    step s = .next { s with schedule := rest, now := s.now + ms } := by
  rw [step_cons next]
  rfl

/-- The sequencer leaves SETTLE once the delay has passed (60_exceptions.md R330). -/
theorem step_leavesSettle {t : SettleTimer} (phase : s.phase = .settle) (timer : s.timer = some t)
    (next : s.schedule = .sequencer :: rest) (due : t.t0 + t.delay ≤ s.now) :
    step s = .next (leaveSettle t { s with schedule := rest }) := by
  have passed : delayPassed t s.now = true := decide_eq_true due
  rw [step_cons next, agentStep, sequencerStep]
  simp only [phase, timer, passed, if_true]

/-- Entering SETTLE on an answer: T0 is the time of the answer (10_state.md R57). -/
theorem settle_answered (d : Nat) (after : AfterSettle) : (s.answered a rest).settle d after =
    { s with
      schedule := rest, phase := .settle, timer := some ⟨s.now, d, after⟩, pending := none
      history := s.history ++ [.answer a, .settleEnter d s.now] } := by
  simp [State.answered, State.settle, State.observe]

/-- Issuing the next request on an answer (10_state.md R58). -/
theorem issue_answered (p : Phase) (q : BusReq) : (s.answered a rest).issue p q =
    { s with
      schedule := rest, phase := p, timer := none, pending := some q
      history := s.history ++ [.answer a, .request q] } := by
  simp [State.answered, State.issue, State.observe]

/-! ## The reaction of each phase -/

@[simp] theorem answered_phase : (s.answered a rest).phase = s.phase := rfl
@[simp] theorem answered_cmd : (s.answered a rest).cmd = s.cmd := rfl

theorem react_of_wCmd (phase : s.phase = .wCmd) :
    react r a (s.answered a rest) = .next (afterCommandWrite a (s.answered a rest)) := by
  rw [react, answered_phase, phase]

theorem react_of_wPtr (phase : s.phase = .wPtr) :
    react r a (s.answered a rest) = .next (afterPointerWrite a (s.answered a rest)) := by
  rw [react, answered_phase, phase]

theorem react_of_rBlk (phase : s.phase = .rBlk) :
    react r a (s.answered a rest) = .next (afterBlockRead a (s.answered a rest)) := by
  rw [react, answered_phase, phase]

theorem react_of_wPay (phase : s.phase = .wPay) :
    react r a (s.answered a rest) = .next (afterPayloadWrite r.data a (s.answered a rest)) := by
  rw [react, answered_phase, phase]

theorem react_of_wTrl (phase : s.phase = .wTrl) :
    react r a (s.answered a rest) = .next (afterTrailerWrite a (s.answered a rest)) := by
  rw [react, answered_phase, phase]

theorem react_of_wKey1 (phase : s.phase = .wKey1) :
    react r a (s.answered a rest) = .next (afterFirstKey a (s.answered a rest)) := by
  rw [react, answered_phase, phase]

theorem react_of_wKey2 (phase : s.phase = .wKey2) :
    react r a (s.answered a rest) = .next (afterSecondKey a (s.answered a rest)) := by
  rw [react, answered_phase, phase]

/-- After its command write a MAC_CMD settles for the delay of its class (44_transport_write.md R270). -/
theorem afterCommandWrite_macCmd {sub cls : Half} (cmd : decode s.cmd = .command (.macCmd sub cls)) :
    afterCommandWrite (.ok b) (s.answered a rest) = (s.answered a rest).settle (classDelay cls) .complete := by
  simp only [afterCommandWrite, answered_cmd, cmd]

/-- After its command write every command but MAC_CMD settles for T_READ (R222). -/
theorem afterCommandWrite_read (cmd : ∀ sub cls, decode s.cmd ≠ .command (.macCmd sub cls)) :
    afterCommandWrite (.ok b) (s.answered a rest) = (s.answered a rest).settle tRead .pointerWrite := by
  rw [afterCommandWrite, answered_cmd]
  split
  · next sub cls h => exact absurd h (cmd sub cls)
  · rfl

/-- After the first key write the second key word is B of the running UNSEAL (44_transport_write.md R275). -/
theorem afterFirstKey_unsealKey {k1 k2 : Half} (cmd : decode s.cmd = .command (.unsealKey k1 k2)) :
    afterFirstKey (.ok b) (s.answered a rest) = (s.answered a rest).issue .wKey2 (keyWrite k2) := by
  rw [afterFirstKey, answered_cmd, fieldB_of_decode_unsealKey cmd]

end

/-! ## Commands by their words -/

/-- The four delay classes are well-formed operands, and their delays (44_transport_write.md R271). -/
theorem classDelay_of_mem {cls : Half} {d : Nat}
    (row : (cls, d) ∈ [((0#16 : Half), 5), (1#16, 500), (2#16, 500), (3#16, 1000)]) :
    classFieldOk cls = true ∧ classDelay cls = d := by
  simp only [List.mem_cons, Prod.mk.injEq, List.not_mem_nil, or_false] at row
  rcases row with ⟨rfl, rfl⟩ | ⟨rfl, rfl⟩ | ⟨rfl, rfl⟩ | ⟨rfl, rfl⟩ <;> exact ⟨rfl, rfl⟩

theorem decode_encode_macRead (a : Half) : decode (encode (.macRead a)) = .command (.macRead a) :=
  decodeEncodeAgree (.macRead a) rfl

theorem decode_encode_dfRead (a : Half) : decode (encode (.dfRead a)) = .command (.dfRead a) :=
  decodeEncodeAgree (.dfRead a) rfl

/-- The word of a block read is no MAC_CMD's. -/
theorem readWord_ne_macCmd {w : Word64} {a : Half} (read : w = encode (.macRead a) ∨ w = encode (.dfRead a))
    (sub cls : Half) : decode w ≠ .command (.macCmd sub cls) := by
  rcases read with rfl | rfl
  · simp [decode_encode_macRead]
  · simp [decode_encode_dfRead]

/-- The trailer's bytes as numbers (30_encoding.md R126, 44_transport_write.md R262). -/
theorem trailerWrite_eq (tx : List Byte) : trailerWrite tx = .write 0x60#8
    [BitVec.ofNat 8 (255 - (tx.map BitVec.toNat).sum % 256), BitVec.ofNat 8 (tx.length + 2)] := by
  have cks := toNat_checksum tx tx.length
  rw [List.take_length, byteSum_eq_sum] at cks
  rw [trailerWrite, ← cks, BitVec.ofNat_toNat, BitVec.setWidth_eq]

/-- Settles O42: each clause is the reaction of its phase, which settles or issues on the answered state. -/
theorem okAnswerGoesOn : Obligations.OkAnswerGoesOn := by
  intro s b r rest pending next
  rw [step_answer pending next]
  refine ⟨?commandOfRead, ?commandOfMacCmd, ?pointer, ?payload, ?trailer, ?firstKey, ?secondKey⟩
  case commandOfRead =>
    intro a phase cmd
    rw [react_of_wCmd phase, afterCommandWrite_read (readWord_ne_macCmd cmd), settle_answered]
  case commandOfMacCmd =>
    intro a cls d row phase cmd
    obtain ⟨fits, rfl⟩ := classDelay_of_mem row
    have decoded : decode s.cmd = .command (.macCmd a cls) := cmd ▸ decodeEncodeAgree (.macCmd a cls) fits
    rw [react_of_wCmd phase, afterCommandWrite_macCmd decoded, settle_answered]
  case pointer =>
    intro phase
    rw [react_of_wPtr phase, afterPointerWrite, issue_answered]
    rfl
  case payload =>
    rintro tx phase rfl
    rw [react_of_wPay phase, afterPayloadWrite, issue_answered, BusReq.data, trailerWrite_eq]
  case trailer =>
    intro phase
    rw [react_of_wTrl phase, afterTrailerWrite, settle_answered]
  case firstKey =>
    intro k1 k2 phase cmd
    have decoded : decode s.cmd = .command (.unsealKey k1 k2) := cmd ▸ decodeEncodeAgree (.unsealKey k1 k2) rfl
    rw [react_of_wKey1 phase, afterFirstKey_unsealKey decoded, issue_answered]
    rfl
  case secondKey =>
    intro phase
    rw [react_of_wKey2 phase, afterSecondKey, settle_answered]

/-! ## The answer of the block read -/

section
variable {s : State} {frame : List Byte}

/-- Inside a range written from index 0 the memory reads as the bytes written. -/
theorem read_writeRange_inside {m : Memory} {bs : List Byte} {k : Nat} (inside : k < bs.length) :
    Memory.read (Memory.writeRange m 0 bs) k = bs[k]? := by
  rw [read_writeRange, if_pos (by omega), Nat.sub_zero]

/-- Past a range written from index 0 the memory is as it was. -/
theorem read_writeRange_past {m : Memory} {bs : List Byte} {k : Nat} (past : bs.length ≤ k) :
    Memory.read (Memory.writeRange m 0 bs) k = Memory.read m k := by
  rw [read_writeRange, if_neg (by omega)]

/-- A rejected frame stands in FRAME and ends the command with the detail of its verdict (R227, R230). -/
theorem receiveFrame_rejected {d : Byte}
    (verdict : (d = 0x02#8 ∧ validate frame = .badLength) ∨ (d = 0x01#8 ∧ validate frame = .sumZero)) :
    receiveFrame frame s =
      { s with
        frame := s.frame.writeRange 0 frame
        code := .checksumError, detail := d, done := true, busy := false
        phase := .idle, timer := none, pending := none } := by
  rcases verdict with ⟨rfl, rejected⟩ | ⟨rfl, rejected⟩ <;> rw [receiveFrame, rejected] <;> rfl

/-- OUT_LEN of a delivered frame as a number: `L - 4` (R229). -/
theorem outLen_eq_ofNat {l : Byte} (hmin : 4 ≤ l.toNat) :
    l - BitVec.ofNat 8 serviceBytes = BitVec.ofNat 8 (l.toNat - 4) := by
  rw [← toNat_outLen hmin, BitVec.ofNat_toNat, BitVec.setWidth_eq]

/-- A valid frame stands in FRAME, and its payload and payload length in OUT and OUT_LEN (R229). -/
theorem receiveFrame_valid (valid : validate frame = .valid) :
    receiveFrame frame s =
      { s with
        frame := s.frame.writeRange 0 frame, out := s.out.writeRange 0 (framePayload frame)
        outLen := BitVec.ofNat 8 ((frameByte frame lengthIndex).toNat - 4)
        code := .ok, detail := 0#8, done := true, busy := false
        phase := .idle, timer := none, pending := none } := by
  rw [receiveFrame, valid, ← outLen_eq_ofNat (length_range_of_valid valid).1]
  rfl

/-- Payload byte `k` of a frame is its byte `2 + k` (R229). -/
theorem getElem?_framePayload {k : Nat} (inside : k < (frameByte frame lengthIndex).toNat - 4) :
    (framePayload frame)[k]? = frame[2 + k]? := by
  rw [framePayload, List.getElem?_take_of_lt inside, List.getElem?_drop]

end

/-- Settles O43: the count is tested first (R226), then the frame's verdict (R227). -/
theorem badReadAnswersFail : Obligations.BadReadAnswersFail := by
  intro s r bytes rest phase pending next
  refine ⟨fun short => ?count, fun d whole verdict => ?rejected⟩
  case count =>
    rw [step_answer pending next, react_of_rBlk phase, afterBlockRead, if_neg short]
    rfl
  case rejected =>
    have arrives := step_frameArrives phase pending next whole
    rw [receiveFrame_rejected verdict] at arrives
    exact ⟨_, arrives, fun k hk => read_writeRange_inside (whole ▸ hk), rfl⟩

/-! ## A whole block read -/

/-- A run goes on from the state its first step leads to. -/
theorem run_of_step {s t : State} (k : Nat) (h : step s = .next t) :
    Host.Core.run Sys2Proof.core (k + 1) s = Host.Core.run Sys2Proof.core k t := by
  have first : Sys2Proof.core.step s = .next t := h
  simp only [Host.Core.run, first]

/-- A block read whose gate lets it through begins with its command write (R213, R221). -/
theorem exec_blockRead {i : Instr} {a : Half} (s : State)
    (read : i = .macRead a ∨ (i = .dfRead a ∧ 0x4000 ≤ a.toNat ∧ a.toNat ≤ 0x5FFF)) :
    exec i s = .next (s.issue .wCmd (commandWrite a)) := by
  rcases read with rfl | ⟨rfl, inside⟩
  · exact exec_macRead
  · exact exec_dfRead_gated (dataFlashGate_iff.2 inside)

/-- The bus history of a block read up to the answer of its 36-byte read, from an idle machine (R220-R224,
R231): five steps lead to R_BLK with the read pending and no register but CMD and STATUS written. -/
theorem run_blockRead_to_rBlk {s : State} {i : Instr} {a : Half} {b1 b2 : List Byte} {ms : Nat}
    {rest : List Event} (k : Nat) (idle : s.busy = false)
    (read : i = .macRead a ∨ (i = .dfRead a ∧ 0x4000 ≤ a.toNat ∧ a.toNat ≤ 0x5FFF)) (passed : 5 ≤ ms)
    (next : s.schedule = .host (.issueCmd (encode i)) :: .answer (.ok b1) :: .elapse ms :: .sequencer ::
      .answer (.ok b2) :: rest) :
    Host.Core.run Sys2Proof.core (k + 5) s = Host.Core.run Sys2Proof.core k
      { s with
        cmd := encode i, busy := true, done := false, code := .ok, detail := 0#8
        phase := .rBlk, timer := none, pending := some blockRead, now := s.now + ms, schedule := rest
        history := s.history ++ [.host (.issueCmd (encode i)),
          .request (.write 0x3E#8 [lo8 a, hi8 a]), .answer (.ok b1),
          .settleEnter 5 s.now, .settleExit 5 (s.now + ms),
          .request (.write 0x3E#8 []), .answer (.ok b2), .request (.read 36#8)] } := by
  have word : encode i = encode (.macRead a) ∨ encode i = encode (.dfRead a) :=
    read.imp (congrArg encode) fun gated => congrArg encode gated.1
  have decoded : decode (encode i) = .command i := by
    rcases read with rfl | ⟨rfl, -⟩
    · exact decode_encode_macRead a
    · exact decode_encode_dfRead a
  have begins := (stepRunsDecodedCommand s (encode i) i _ (.inl next) idle decoded).trans (exec_blockRead _ read)
  have due : s.now + 5 ≤ s.now + ms := Nat.add_le_add_left passed s.now
  calc Host.Core.run Sys2Proof.core (k + 5) s
    _ = Host.Core.run Sys2Proof.core (k + 4) _ := run_of_step _ begins
    _ = Host.Core.run Sys2Proof.core (k + 3) _ := run_of_step _ ((okAnswerGoesOn _ b1 _ _ rfl rfl).1 a rfl word)
    _ = Host.Core.run Sys2Proof.core (k + 2) _ := run_of_step _ (step_elapse rfl)
    _ = Host.Core.run Sys2Proof.core (k + 1) _ := run_of_step _ (step_leavesSettle rfl rfl rfl due)
    _ = Host.Core.run Sys2Proof.core k _ := run_of_step _ ((okAnswerGoesOn _ b2 _ _ rfl rfl).2.2.1 rfl)
    _ = _ := by simp [leaveSettle, State.issue, State.observe, commandWrite, pointerWrite, wireHalf, blockRead]

/-- Settles O37: the read is issued, the frame arrives (R227) and is valid by its length byte and sum (O21), and
it is delivered (R229). -/
theorem blockReadExchange : Obligations.BlockReadExchange := by
  intro s i a b1 b2 frame ms rest idle read passed whole hmin hmax sum next
  have valid : validate frame = .valid := (validateVerdict frame whole).2.2.1.2 ⟨⟨hmin, hmax⟩, sum⟩
  have payloadLength : (framePayload frame).length = (frame.getD 35 0#8).toNat - 4 :=
    length_framePayload whole hmax
  have ends := (run_blockRead_to_rBlk 1 idle read passed next).trans
    (run_of_step 0 (step_frameArrives rfl rfl rfl whole))
  rw [receiveFrame_valid valid] at ends
  refine ⟨_, ends, ?frameOfRest, fun k hk => ?payload, fun k hk => ?pastPayload, fun k hk => ?frame⟩
  case frameOfRest =>
    simp only [State.observe, List.append_assoc, List.cons_append, List.nil_append]
    rfl
  case payload =>
    exact (read_writeRange_inside (payloadLength ▸ hk)).trans (getElem?_framePayload hk)
  case pastPayload => exact read_writeRange_past (payloadLength ▸ hk)
  case frame => exact read_writeRange_inside (whole ▸ hk)

end Sys2Proof.Machine
end

section
/-! PROOFS. The write path and the command-only sequences (spec 44_transport_write.md R260-R281): the trailer of a
data-flash write as the last two bytes of a frame, an `ioerr` in each phase with a bus call, and each whole
exchange as its requests, its answers and the common end of its settle delay. -/

namespace Sys2Proof.Machine

open Sys2Proof.Config

/-! ## The trailer as the end of a frame -/

section
variable {covered padding : List Byte} {cks l : Byte}

/-- A frame's last two bytes are its checksum byte and its length byte (30_encoding.md R124). -/
theorem frameByte_append_trailer (k : Nat) (body : covered.length + padding.length = 34) :
    frameByte (covered ++ padding ++ [cks, l]) (34 + k) = [cks, l].getD k 0#8 := by
  have bodyLength : (covered ++ padding).length = 34 := by rw [List.length_append, body]
  rw [frameByte, List.getD_append_right _ _ _ _ (by omega), bodyLength, Nat.add_sub_cancel_left]

theorem checksumByte_append_trailer (body : covered.length + padding.length = 34) :
    frameByte (covered ++ padding ++ [cks, l]) checksumIndex = cks := frameByte_append_trailer 0 body

theorem lengthByte_append_trailer (body : covered.length + padding.length = 34) :
    frameByte (covered ++ padding ++ [cks, l]) lengthIndex = l := frameByte_append_trailer 1 body

/-- With a length byte two above the number of the leading bytes the validity sum covers exactly those
(41_validator.md R181). -/
theorem frameSum_append_trailer (body : covered.length + padding.length = 34)
    (length : l.toNat = covered.length + 2) :
    frameSum (covered ++ padding ++ [cks, l]) = validitySum cks covered := by
  have coveredCount : coveredBytes l = covered.length := by rw [coveredBytes, length, Nat.add_sub_cancel]
  rw [frameSum, frameCovered, checksumByte_append_trailer body, lengthByte_append_trailer body, coveredCount,
    List.append_assoc, List.take_left]

end

theorem length_payloadData (a : Half) (payload : List Byte) :
    (payloadData a payload).length = payload.length + 2 := by
  rw [payloadData, wireHalf, List.length_append, List.length_cons, List.length_singleton, Nat.add_comm]

/-- Settles O23: the trailer's length byte makes the sum cover the bytes its checksum byte complements. -/
theorem writeTrailerMakesValidFrame : Obligations.WriteTrailerMakesValidFrame := by
  intro a payload padding padded
  have txLength := length_payloadData a payload
  generalize payloadData a payload = tx at txLength ⊢
  have body : tx.length + padding.length = 34 := by omega
  have length : (BitVec.ofNat 8 (tx.length + 2)).toNat = tx.length + 2 := by
    rw [BitVec.toNat_ofNat]; omega
  have sum : validitySum (checksum tx tx.length) tx = 0xFF#8 := by
    simpa only [List.take_length] using validitySum_checksum tx tx.length
  refine ⟨checksum tx tx.length, BitVec.ofNat 8 (tx.length + 2), rfl, by omega, ?valid, sum⟩
  refine validate_eq_valid_iff.2 ⟨?inRange, ?nonzero⟩
  case inRange =>
    rw [lengthByte_append_trailer body, lengthOk_iff, length]
    omega
  case nonzero =>
    rw [frameSum_append_trailer body length, sum]
    decide

/-! ## An `ioerr` answer -/

/-- In every phase with a bus call the reaction to `ioerr` is the end of the command with that phase's
IO_ERROR (R265). -/
theorem react_ioerr {r : BusReq} {s : State} (notIdle : s.phase ≠ .idle) (notSettle : s.phase ≠ .settle) :
    react r .ioerr s = .next (s.raise (.io s.phase)) := by
  cases phase : s.phase with
  | idle => exact absurd phase notIdle
  | settle => exact absurd phase notSettle
  | wCmd | wPtr | rBlk | wPay | wTrl | wKey1 | wKey2 => rw [react, phase]; rfl

/-- The phases with a bus call and the DETAIL of their IO_ERROR (10_state.md R48). -/
theorem ioDetail_of_mem {p : Phase} {d : Byte}
    (row : (p, d) ∈ [(Phase.wCmd, 0x01#8), (Phase.wPtr, 0x03#8), (Phase.rBlk, 0x04#8), (Phase.wPay, 0x05#8),
      (Phase.wTrl, 0x06#8), (Phase.wKey1, 0x07#8), (Phase.wKey2, 0x08#8)]) :
    p ≠ .idle ∧ p ≠ .settle ∧ (Cause.io p).detail = d := by
  have rows : ∀ e ∈ [(Phase.wCmd, 0x01#8), (Phase.wPtr, 0x03#8), (Phase.rBlk, 0x04#8), (Phase.wPay, 0x05#8),
      (Phase.wTrl, 0x06#8), (Phase.wKey1, 0x07#8), (Phase.wKey2, 0x08#8)],
      e.1 ≠ .idle ∧ e.1 ≠ .settle ∧ (Cause.io e.1).detail = e.2 := by decide
  exact rows _ row

/-- Settles O41: the reaction raises the phase's IO_ERROR on the answered state, where no request is left. -/
theorem ioErrorEndsCommand : Obligations.IoErrorEndsCommand := by
  rintro s p d r rest row rfl pending next
  obtain ⟨notIdle, notSettle, rfl⟩ := ioDetail_of_mem row
  rw [step_answer pending next]
  exact react_ioerr notIdle notSettle

/-! ## The steps of an exchange -/

section
variable {s : State} {r : BusReq} {b : List Byte} {rest : List Event}

/-- The accepting step of a transport command whose gates let it through: it is in its first phase with its
first request issued (10_state.md R42, R58). The gates and the request may read DBUF. -/
theorem step_issuesFirstRequest {w : Word64} {i : Instr} {p : Phase} {q : BusReq} (idle : s.busy = false)
    (decoded : decode w = .command i) (begins : ∀ t : State, t.dbuf = s.dbuf → exec i t = .next (t.issue p q))
    (next : s.schedule = .host (.issueCmd w) :: rest) :
    step s = .next
      { s with
        cmd := w, busy := true, done := false, code := .ok, detail := 0#8
        phase := p, timer := none, pending := some q, schedule := rest
        history := s.history ++ [.host (.issueCmd w), .request q] } := by
  refine ((stepRunsDecodedCommand s w i rest (.inl next) idle decoded).trans (begins _ rfl)).trans ?_
  simp [State.issue, State.observe]

theorem step_macCmdAnswered {a cls : Half} {d : Nat}
    (row : (cls, d) ∈ [((0#16 : Half), 5), (1#16, 500), (2#16, 500), (3#16, 1000)])
    (phase : s.phase = .wCmd) (cmd : s.cmd = encode (.macCmd a cls)) (pending : s.pending = some r)
    (next : s.schedule = .answer (.ok b) :: rest) :
    step s = .next
      { s with
        schedule := rest, phase := .settle, timer := some ⟨s.now, d, .complete⟩, pending := none
        history := s.history ++ [.answer (.ok b), .settleEnter d s.now] } := by
  obtain ⟨-, macCmd, -⟩ := okAnswerGoesOn s b r rest pending next
  exact macCmd a cls d row phase cmd

theorem step_payloadAnswered {tx : List Byte} (phase : s.phase = .wPay)
    (pending : s.pending = some (.write 0x3E#8 tx)) (next : s.schedule = .answer (.ok b) :: rest) :
    step s = .next
      { s with
        schedule := rest, phase := .wTrl, timer := none, pending := some (trailerWrite tx)
        history := s.history ++ [.answer (.ok b), .request (trailerWrite tx)] } := by
  obtain ⟨-, -, -, payload, -⟩ := okAnswerGoesOn s b _ rest pending next
  rw [trailerWrite_eq]
  exact payload tx phase rfl

theorem step_trailerAnswered (phase : s.phase = .wTrl) (pending : s.pending = some r)
    (next : s.schedule = .answer (.ok b) :: rest) :
    step s = .next
      { s with
        schedule := rest, phase := .settle, timer := some ⟨s.now, 200, .complete⟩, pending := none
        history := s.history ++ [.answer (.ok b), .settleEnter 200 s.now] } := by
  obtain ⟨-, -, -, -, trailer, -⟩ := okAnswerGoesOn s b r rest pending next
  exact trailer phase

theorem step_firstKeyAnswered {k1 k2 : Half} (phase : s.phase = .wKey1)
    (cmd : s.cmd = encode (.unsealKey k1 k2)) (pending : s.pending = some r)
    (next : s.schedule = .answer (.ok b) :: rest) :
    step s = .next
      { s with
        schedule := rest, phase := .wKey2, timer := none, pending := some (keyWrite k2)
        history := s.history ++ [.answer (.ok b), .request (keyWrite k2)] } := by
  obtain ⟨-, -, -, -, -, firstKey, -⟩ := okAnswerGoesOn s b r rest pending next
  exact firstKey k1 k2 phase cmd

theorem step_secondKeyAnswered (phase : s.phase = .wKey2) (pending : s.pending = some r)
    (next : s.schedule = .answer (.ok b) :: rest) :
    step s = .next
      { s with
        schedule := rest, phase := .settle, timer := some ⟨s.now, 1000, .complete⟩, pending := none
        history := s.history ++ [.answer (.ok b), .settleEnter 1000 s.now] } := by
  obtain ⟨-, -, -, -, -, -, secondKey⟩ := okAnswerGoesOn s b r rest pending next
  exact secondKey phase

/-- With the delay passed, a command that completes after its settle delay ends in two moves, of time and of
the sequencer (60_exceptions.md R330). -/
theorem run_settle_to_complete {t0 d ms : Nat} (k : Nat) (phase : s.phase = .settle)
    (timer : s.timer = some ⟨t0, d, .complete⟩) (due : t0 + d ≤ s.now + ms)
    (next : s.schedule = .elapse ms :: .sequencer :: rest) :
    Host.Core.run Sys2Proof.core (k + 2) s = Host.Core.run Sys2Proof.core k
      { s with
        busy := false, done := true, code := .ok, detail := 0#8
        phase := .idle, timer := none, pending := none, now := s.now + ms, schedule := rest
        history := s.history ++ [.settleExit d (s.now + ms)] } :=
  calc Host.Core.run Sys2Proof.core (k + 2) s
    _ = Host.Core.run Sys2Proof.core (k + 1) _ := run_of_step _ (step_elapse next)
    _ = Host.Core.run Sys2Proof.core k _ := run_of_step _ (step_leavesSettle phase timer rfl due)

end

/-! ## Whole exchanges -/

/-- Settles O38: the payload write is of the bytes DBUF holds, and the trailer is computed from it (R262). -/
theorem dfWriteExchange : Obligations.DfWriteExchange := by
  intro s a n payload b1 b2 ms rest idle hmin hmax one most length holds passed next tx trailer
  have addr : dataFlashGate a = true := dataFlashGate_iff.2 ⟨hmin, hmax⟩
  have size : isPayloadSizeValid n = true := isPayloadSizeValid_iff.2 ⟨one, most⟩
  have decoded : decode (encode (.dfWrite a n)) = .command (.dfWrite a n) := decodeEncodeAgree (.dfWrite a n) rfl
  have begins (t : State) (same : t.dbuf = s.dbuf) :
      exec (.dfWrite a n) t = .next (t.issue .wPay (payloadWrite a payload)) :=
    exec_dfWrite_gated addr size length (same ▸ holds)
  have trailerIs : trailerWrite tx = trailer := by
    have txLength : tx.length + 2 = n.toNat + 4 := by
      rw [← length]
      exact congrArg (· + 2) (length_payloadData a payload)
    rw [trailerWrite_eq, txLength]
  have due : s.now + 200 ≤ s.now + ms := Nat.add_le_add_left passed s.now
  rw [← trailerIs]
  calc Host.Core.run Sys2Proof.core 5 s
    _ = Host.Core.run Sys2Proof.core 4 _ := run_of_step _ (step_issuesFirstRequest idle decoded begins next)
    _ = Host.Core.run Sys2Proof.core 3 _ := run_of_step _ (step_payloadAnswered (tx := tx) rfl rfl rfl)
    _ = Host.Core.run Sys2Proof.core 2 _ := run_of_step _ (step_trailerAnswered rfl rfl rfl)
    _ = Host.Core.run Sys2Proof.core 0 _ := run_settle_to_complete 0 rfl rfl due rfl
    _ = _ := by
      simp only [List.append_assoc, List.cons_append, List.nil_append]
      rfl

/-- Settles O39: the class fixes the delay when its command write is answered (R271). -/
theorem macCmdExchange : Obligations.MacCmdExchange := by
  intro s a cls b1 d ms rest idle row passed next
  obtain ⟨fits, -⟩ := classDelay_of_mem row
  have decoded : decode (encode (.macCmd a cls)) = .command (.macCmd a cls) := decodeEncodeAgree (.macCmd a cls) fits
  have due : s.now + d ≤ s.now + ms := Nat.add_le_add_left passed s.now
  calc Host.Core.run Sys2Proof.core 4 s
    _ = Host.Core.run Sys2Proof.core 3 _ :=
      run_of_step _ (step_issuesFirstRequest idle decoded (fun _ _ => exec_macCmd) next)
    _ = Host.Core.run Sys2Proof.core 2 _ := run_of_step _ (step_macCmdAnswered row rfl rfl rfl rfl)
    _ = Host.Core.run Sys2Proof.core 0 _ := run_settle_to_complete 0 rfl rfl due rfl
    _ = _ := by
      simp only [List.append_assoc, List.cons_append, List.nil_append]
      rfl

/-- Settles O40: the second key write follows the first's answer with no delay, and its own starts the delay
(R275). -/
theorem unsealExchange : Obligations.UnsealExchange := by
  intro s k1 k2 b1 b2 ms rest idle passed next
  have decoded : decode (encode (.unsealKey k1 k2)) = .command (.unsealKey k1 k2) :=
    decodeEncodeAgree (.unsealKey k1 k2) rfl
  have due : s.now + 1000 ≤ s.now + ms := Nat.add_le_add_left passed s.now
  calc Host.Core.run Sys2Proof.core 5 s
    _ = Host.Core.run Sys2Proof.core 4 _ :=
      run_of_step _ (step_issuesFirstRequest idle decoded (fun _ _ => exec_unsealKey) next)
    _ = Host.Core.run Sys2Proof.core 3 _ := run_of_step _ (step_firstKeyAnswered rfl rfl rfl rfl)
    _ = Host.Core.run Sys2Proof.core 2 _ := run_of_step _ (step_secondKeyAnswered rfl rfl rfl)
    _ = Host.Core.run Sys2Proof.core 0 _ := run_settle_to_complete 0 rfl rfl due rfl
    _ = _ := by
      simp only [List.append_assoc, List.cons_append, List.nil_append]
      rfl

end Sys2Proof.Machine
end

section
/-! PROOFS. Time, the settle delay and the end of a running command (spec 60_exceptions.md R306, R330, R331): what
the sequencer's step does before and after T0 + D, which step can leave SETTLE, and, phase by phase from the last
one back, moves of the other agents that complete a command. -/

namespace Sys2Proof.Machine

open Sys2Proof.Config

/-! ## Time and the settle delay -/

/-- Settles O48: the step of a time move is `elapse`. -/
theorem timeChangesOnlyNow : Obligations.TimeChangesOnlyNow :=
  fun _ _ _ next => step_elapse next

/-- Before T0 + D the sequencer's own step waits (R330). -/
theorem sequencerStep_of_early {s : State} {t : SettleTimer} (timer : s.timer = some t)
    (early : s.now < t.t0 + t.delay) : sequencerStep s = s := by
  rcases sequencerStep_cases s with ⟨t', -, running, passed, -⟩ | waits
  · obtain rfl : t = t' := Option.some.inj (timer.symm.trans running)
    omega
  · exact waits

/-- Settles O45: the step waits while the delay has not passed, and is `leaveSettle` from then on. -/
theorem settleStepWaitsThenLeaves : Obligations.SettleStepWaitsThenLeaves := by
  intro s t0 d after rest phase timer next
  refine ⟨fun early => ?waits, ?pointerWrite, ?complete⟩
  case waits =>
    have waits : sequencerStep { s with schedule := rest } = { s with schedule := rest } :=
      sequencerStep_of_early timer early
    rw [step_cons next, agentStep, waits]
  case pointerWrite =>
    rintro due rfl
    rw [step_leavesSettle phase timer next due]
    simp [leaveSettle, State.issue, State.observe, pointerWrite, regMac]
  case complete =>
    rintro due rfl
    rw [step_leavesSettle phase timer next due]
    rfl

/-! ## Who leaves SETTLE -/

/-- No bus call is outstanding in SETTLE, so an answer has no reaction there (10_state.md R58). -/
theorem Reacts.phase_ne_settle {r : BusReq} {a : BusAnswer} {s t : State} (h : Reacts r a s t) :
    s.phase ≠ .settle := by
  cases h with
  | ioError row =>
    intro settling
    rw [settling] at row
    exact absurd row (by decide)
  | macCmdSettles phase | blockReadSettles phase | pointerWritten phase | wrongCount phase | frameArrived phase
  | payloadWritten phase | trailerWritten phase | firstKeyWritten phase | secondKeyWritten phase => simp [phase]

/-- Settles O46, by the moves of a running command: those of the other agents keep PHASE, and the sequencer's
tells that its delay has passed. -/
theorem onlyElapsedDelayLeavesSettle : Obligations.OnlyElapsedDelayLeavesSettle := by
  intro s t timer busy phase running stepped left
  cases step_moves stepped with
  | reset next => exact .inl ⟨_, next⟩
  | settleLeft next _ running' passed =>
    obtain rfl : timer = _ := Option.some.inj (running.symm.trans running')
    exact .inr ⟨_, next, passed⟩
  | accepted idle | dataWritten idle => simp [busy] at idle
  | answered _ _ reacts => exact absurd phase reacts.phase_ne_settle
  | unscheduled | dropped | hostRead | sequencerWaits | lateAnswer | elapsed => exact absurd phase left

/-! ## Completing a running command -/

/-- The moves that are scheduled bring the command to completion with OK. -/
def CompletesAsScheduled (s : State) : Prop :=
  ∃ t, Host.Core.run Sys2Proof.core s.schedule.length s = .next t ∧
    t.busy = false ∧ t.done = true ∧ t.code = .ok

/-- A frame with no payload whose checksum byte makes its sum 1, which is accepted (R183). -/
def acceptedFrame : List Byte := List.replicate 34 0#8 ++ [1#8, 4#8]

theorem validate_acceptedFrame : validate acceptedFrame = .valid := by decide

section
variable {s : State} {r : BusReq} {b : List Byte} {ms : Nat}

/-- A completed command with nothing more scheduled has completed. -/
theorem completesAsScheduled_of_completed (next : s.schedule = []) (busy : s.busy = false) (done : s.done = true)
    (code : s.code = .ok) : CompletesAsScheduled s := by
  rw [CompletesAsScheduled, next]
  exact ⟨s, rfl, busy, done, code⟩

/-- A step that consumes its move leaves the others to complete the command. -/
theorem CompletesAsScheduled.of_step {t : State} {e : Event} (h : CompletesAsScheduled t)
    (next : s.schedule = e :: t.schedule) (stepped : step s = .next t) : CompletesAsScheduled s := by
  obtain ⟨u, ends, completed⟩ := h
  rw [CompletesAsScheduled, next]
  exact ⟨u, (run_of_step _ stepped).trans ends, completed⟩

/-- A command that completes after its delay waits for nothing but the time (R330). -/
theorem completesAsScheduled_of_settle_complete {t0 d : Nat} (phase : s.phase = .settle)
    (timer : s.timer = some ⟨t0, d, .complete⟩) (due : t0 + d ≤ s.now + ms)
    (next : s.schedule = [.elapse ms, .sequencer]) : CompletesAsScheduled s := by
  rw [CompletesAsScheduled, next]
  exact ⟨_, run_settle_to_complete 0 phase timer due next, rfl, rfl, rfl⟩

/-- A block read whose frame is accepted delivers it and completes (43_transport_read.md R229). -/
theorem completesAsScheduled_of_rBlk (phase : s.phase = .rBlk) (pending : s.pending = some r)
    (next : s.schedule = [.answer (.ok acceptedFrame)]) : CompletesAsScheduled s := by
  have arrives := step_frameArrives phase pending next rfl
  rw [receiveFrame_valid validate_acceptedFrame] at arrives
  exact (completesAsScheduled_of_completed rfl rfl rfl rfl).of_step next arrives

theorem completesAsScheduled_of_wPtr (phase : s.phase = .wPtr) (pending : s.pending = some r)
    (next : s.schedule = [.answer (.ok b), .answer (.ok acceptedFrame)]) : CompletesAsScheduled s :=
  (completesAsScheduled_of_rBlk rfl rfl rfl).of_step next
    ((step_answer pending next).trans (react_of_wPtr phase))

/-- A block read goes on after its delay with the pointer write and the read (R222-R224). -/
theorem completesAsScheduled_of_settle_pointerWrite {t0 d : Nat} (phase : s.phase = .settle)
    (timer : s.timer = some ⟨t0, d, .pointerWrite⟩) (due : t0 + d ≤ s.now + ms)
    (next : s.schedule = [.elapse ms, .sequencer, .answer (.ok b), .answer (.ok acceptedFrame)]) :
    CompletesAsScheduled s := by
  refine .of_step ?_ next (step_elapse next)
  refine .of_step ?_ rfl (step_leavesSettle phase timer rfl due)
  exact completesAsScheduled_of_wPtr rfl rfl rfl

theorem completesAsScheduled_of_wCmd_macCmd {sub cls : Half} (cmd : decode s.cmd = .command (.macCmd sub cls))
    (phase : s.phase = .wCmd) (pending : s.pending = some r)
    (next : s.schedule = [.answer (.ok b), .elapse (classDelay cls), .sequencer]) : CompletesAsScheduled s := by
  have stepped := (step_answer pending next).trans (react_of_wCmd phase)
  rw [afterCommandWrite_macCmd cmd] at stepped
  exact (completesAsScheduled_of_settle_complete rfl rfl le_rfl rfl).of_step next stepped

theorem completesAsScheduled_of_wCmd_read (cmd : ∀ sub cls, decode s.cmd ≠ .command (.macCmd sub cls))
    (phase : s.phase = .wCmd) (pending : s.pending = some r)
    (next : s.schedule = [.answer (.ok b), .elapse tRead, .sequencer, .answer (.ok b),
      .answer (.ok acceptedFrame)]) : CompletesAsScheduled s := by
  have stepped := (step_answer pending next).trans (react_of_wCmd phase)
  rw [afterCommandWrite_read cmd] at stepped
  exact (completesAsScheduled_of_settle_pointerWrite rfl rfl le_rfl rfl).of_step next stepped

theorem completesAsScheduled_of_wTrl (phase : s.phase = .wTrl) (pending : s.pending = some r)
    (next : s.schedule = [.answer (.ok b), .elapse tDfWrite, .sequencer]) : CompletesAsScheduled s :=
  (completesAsScheduled_of_settle_complete rfl rfl le_rfl rfl).of_step next
    (step_trailerAnswered phase pending next)

theorem completesAsScheduled_of_wPay (phase : s.phase = .wPay) (pending : s.pending = some r)
    (next : s.schedule = [.answer (.ok b), .answer (.ok b), .elapse tDfWrite, .sequencer]) :
    CompletesAsScheduled s :=
  (completesAsScheduled_of_wTrl rfl rfl rfl).of_step next
    ((step_answer pending next).trans (react_of_wPay phase))

theorem completesAsScheduled_of_wKey2 (phase : s.phase = .wKey2) (pending : s.pending = some r)
    (next : s.schedule = [.answer (.ok b), .elapse tUnseal, .sequencer]) : CompletesAsScheduled s :=
  (completesAsScheduled_of_settle_complete rfl rfl le_rfl rfl).of_step next
    (step_secondKeyAnswered phase pending next)

theorem completesAsScheduled_of_wKey1 (phase : s.phase = .wKey1) (pending : s.pending = some r)
    (next : s.schedule = [.answer (.ok b), .answer (.ok b), .elapse tUnseal, .sequencer]) :
    CompletesAsScheduled s :=
  (completesAsScheduled_of_wKey2 rfl rfl rfl).of_step next
    ((step_answer pending next).trans (react_of_wKey1 phase))

end

/-- At most five moves, none of them the host's, complete the command. -/
def CanComplete (s : State) : Prop :=
  ∃ moves : List Event, moves.length ≤ 5 ∧ (∀ a, .host a ∉ moves) ∧
    CompletesAsScheduled { s with schedule := moves }

/-- The phase fixes the moves that complete the command; by the invariant its request is pending, or its timer
runs (R57, R58). -/
theorem Inv.canComplete {s : State} (inv : Inv s) (busy : s.busy = true) : CanComplete s := by
  have fits := inv.sequencer.fits
  unfold PhaseFits at fits
  cases phase : s.phase with rw [phase] at fits
  | idle => simp [inv.sequencer.idle_iff.1 phase] at busy
  | wCmd =>
    obtain ⟨-, _, _, -, -, pending⟩ := fits
    by_cases macCmd : ∃ sub cls, decode s.cmd = .command (.macCmd sub cls)
    · obtain ⟨sub, cls, cmd⟩ := macCmd
      exact ⟨[.answer (.ok []), .elapse (classDelay cls), .sequencer], by simp, by simp,
        completesAsScheduled_of_wCmd_macCmd cmd phase pending rfl⟩
    · exact ⟨[.answer (.ok []), .elapse tRead, .sequencer, .answer (.ok []), .answer (.ok acceptedFrame)],
        by simp, by simp,
        completesAsScheduled_of_wCmd_read (fun sub cls cmd => macCmd ⟨sub, cls, cmd⟩) phase pending rfl⟩
  | settle =>
    obtain ⟨-, _, ⟨t0, d, after⟩, -, timer, -, since⟩ := fits
    have due : t0 + d ≤ s.now + d := Nat.add_le_add_right since d
    cases after with
    | pointerWrite =>
      exact ⟨[.elapse d, .sequencer, .answer (.ok []), .answer (.ok acceptedFrame)], by simp, by simp,
        completesAsScheduled_of_settle_pointerWrite phase timer due rfl⟩
    | complete =>
      exact ⟨[.elapse d, .sequencer], by simp, by simp,
        completesAsScheduled_of_settle_complete phase timer due rfl⟩
  | wPtr =>
    obtain ⟨-, pending, -⟩ := fits
    exact ⟨[.answer (.ok []), .answer (.ok acceptedFrame)], by simp, by simp,
      completesAsScheduled_of_wPtr phase pending rfl⟩
  | rBlk =>
    obtain ⟨-, pending, -⟩ := fits
    exact ⟨[.answer (.ok acceptedFrame)], by simp, by simp, completesAsScheduled_of_rBlk phase pending rfl⟩
  | wPay =>
    obtain ⟨-, _, _, -, pending⟩ := fits
    exact ⟨[.answer (.ok []), .answer (.ok []), .elapse tDfWrite, .sequencer], by simp, by simp,
      completesAsScheduled_of_wPay phase pending rfl⟩
  | wTrl =>
    obtain ⟨-, _, _, -, pending⟩ := fits
    exact ⟨[.answer (.ok []), .elapse tDfWrite, .sequencer], by simp, by simp,
      completesAsScheduled_of_wTrl phase pending rfl⟩
  | wKey1 =>
    obtain ⟨-, _, _, -, pending⟩ := fits
    exact ⟨[.answer (.ok []), .answer (.ok []), .elapse tUnseal, .sequencer], by simp, by simp,
      completesAsScheduled_of_wKey1 phase pending rfl⟩
  | wKey2 =>
    obtain ⟨-, _, _, -, pending⟩ := fits
    exact ⟨[.answer (.ok []), .elapse tUnseal, .sequencer], by simp, by simp,
      completesAsScheduled_of_wKey2 phase pending rfl⟩

/-- Settles O59. -/
theorem runningCommandCanComplete : Obligations.RunningCommandCanComplete :=
  fun _ inv busy => inv.canComplete busy

end Sys2Proof.Machine
end

section
/-! PROOFS. Reset and the refused accesses (spec 70_reset_and_hazards.md R340, R342, R362): what Reset leaves and
that it alone clears REJECT, that an abandoned call's answer is discarded, and which accesses to the host window
have a step. -/

namespace Sys2Proof.Machine

/-! ## Reset and the answer to an abandoned call -/

section
variable {s t : State} {rest : List Event}

/-- Reset leaves the reset state in the environment as it was, with an outstanding bus call now an abandoned one
(R340, R342). -/
theorem step_reset (next : s.schedule = .host .reset :: rest) :
    step s = .next { State.reset with
      now := s.now, abandoned := s.abandoned + (if s.pending.isSome then 1 else 0), schedule := rest
      history := s.history ++ [.host .reset] } :=
  step_cons next

/-- Reset while a bus call is outstanding (R342). -/
theorem step_reset_of_pending {r : BusReq} (pending : s.pending = some r)
    (next : s.schedule = .host .reset :: rest) :
    step s = .next { State.reset with
      now := s.now, abandoned := s.abandoned + 1, schedule := rest
      history := s.history ++ [.host .reset] } := by
  rw [step_reset next, pending]
  rfl

/-- Reset with no bus call outstanding, as in IDLE and in SETTLE (10_state.md R58). -/
theorem step_reset_of_not_pending (pending : s.pending = none) (next : s.schedule = .host .reset :: rest) :
    step s = .next { State.reset with
      now := s.now, abandoned := s.abandoned, schedule := rest
      history := s.history ++ [.host .reset] } := by
  rw [step_reset next, pending]
  rfl

/-- The answer to an abandoned call is recorded, and the BTF does not look at it (R342). -/
theorem step_lateAnswer {n : Nat} {a : BusAnswer} (abandoned : s.abandoned = n + 1)
    (next : s.schedule = .lateAnswer a :: rest) :
    step s = .next { s with
      abandoned := n, schedule := rest, history := s.history ++ [.lateAnswer a] } :=
  (step_cons next).trans (lateBusAnswer_eq_next.2 ⟨n, abandoned, rfl⟩)

/-- REJECT is sticky: a command, the sequencer and the collaborator never write it, and a dropped write sets it
(10_state.md R46). -/
theorem Moves.reset_of_reject_cleared (m : Moves s t) (before : s.reject = true) (after : t.reject = false) :
    ∃ rest, s.schedule = .host .reset :: rest := by
  have changed : t.reject ≠ s.reject := by simp [before, after]
  cases m with
  | reset next => exact ⟨_, next⟩
  | dropped => simp at after
  | accepted _ _ begins => exact absurd (beginCommand_keeps begins).1.reject changed
  | settleLeft => exact absurd (leaveSettle_keeps _ _).1.reject changed
  | answered _ _ reacts => exact absurd reacts.keepsHostSide.1.reject changed
  | _ => exact absurd rfl changed

end

/-- Settles O6: the BTF's fields after Reset are those of the reset state (R60), and a step that clears REJECT is
Reset. -/
theorem hostResetRestoresAll : Obligations.HostResetRestoresAll := by
  constructor
  · intro s rest next
    obtain ⟨cmd, status, result, outLen, phase, timer, pending, -⟩ := resetValues
    exact ⟨_, step_reset next, cmd, status, result, outLen, phase, timer, pending, fun b _ => by cases b <;> rfl⟩
  · exact fun s t stepped => (step_moves stepped).reset_of_reject_cleared

/-- Settles O49: a pending call becomes an abandoned one, whose answer then changes nothing of the BTF. -/
theorem resetAbandonsCommand : Obligations.ResetAbandonsCommand := by
  refine ⟨fun s r a rest pending next => ?_, fun s r rest => step_reset_of_pending,
    fun s n a rest => step_lateAnswer, fun s rest _ => step_reset_of_not_pending, rfl⟩
  rw [run_of_step 1 (step_reset_of_pending pending next), run_of_step 0 (step_lateAnswer rfl rfl)]
  simp [Host.Core.run]

/-! ## Accesses with no step -/

/-- An access that touches a reserved offset meets a first one. -/
theorem firstReserved_isSome {off n k : Nat} (inside : k < n) (reserved : ¬Mapped (off + k)) :
    (firstReserved off n).isSome := by
  induction n generalizing off k with
  | zero => omega
  | succ n ih =>
    rw [firstReserved]
    split_ifs with mapped
    · cases k with
      | zero => exact absurd (windowCell_isSome.1 mapped) reserved
      | succ k => exact ih (k := k) (by omega) (by rwa [Nat.add_right_comm])
    · rfl

/-- A read that touches a reserved offset is refused, naming the first one (R362). -/
theorem readWindow_refused {off n k : Nat} (s : State) (inside : k < n) (reserved : ¬Mapped (off + k)) :
    ∃ r, readWindow off n s = .refused r := by
  obtain ⟨bad, first⟩ := Option.isSome_iff_exists.1 (firstReserved_isSome inside reserved)
  exact ⟨.reservedOffset bad, by rw [readWindow, first]⟩

/-- A raw write is one of the two writes of 10_state.md R32 or is refused; it never faults. -/
theorem classifyWrite_next_or_refused (off : Nat) (data : List Byte) :
    (∃ w, classifyWrite off data = .next w) ∨ ∃ r, classifyWrite off data = .refused r := by
  unfold classifyWrite
  split
  · exact .inr ⟨_, rfl⟩
  split
  case h_2 => exact .inl ⟨_, rfl⟩
  case h_4 =>
    split_ifs
    · exact .inl ⟨_, rfl⟩
    · exact .inr ⟨_, rfl⟩
  all_goals exact .inr ⟨_, rfl⟩

/-- A raw write other than the 8-byte write to CMD and the byte write to DBUF is refused (R362). -/
theorem classifyWrite_refused {off : Nat} {data : List Byte} (notCmd : ¬(off = 0 ∧ data.length = 8))
    (notDbuf : ¬(0x40 ≤ off ∧ off < 0x64 ∧ data.length = 1)) :
    ∃ r, classifyWrite off data = .refused r := by
  refine (classifyWrite_next_or_refused off data).resolve_left ?_
  rintro ⟨w | ⟨i, v⟩, accepted⟩
  · obtain ⟨atCmd, rfl⟩ := classifyWrite_eq_issue accepted
    exact notCmd ⟨atCmd, length_cmdBytes w⟩
  · obtain ⟨atDbuf, inside, rfl⟩ := classifyWrite_eq_data accepted
    exact notDbuf ⟨by omega, by omega, rfl⟩

section
variable {s : State} {off : Byte} {rest : List Event}

theorem step_readReg_refused {n k : Nat} (inside : k < n) (reserved : ¬Mapped (off.toNat + k))
    (next : s.schedule = .host (.readReg off n) :: rest) : ∃ r, step s = .refused r := by
  obtain ⟨r, refused⟩ := readWindow_refused { s with schedule := rest } inside reserved
  exact ⟨r, by rw [step_readReg next, refused, andThen_refused]⟩

theorem step_writeReg_refused {data : List Byte} (notCmd : ¬(off.toNat = 0 ∧ data.length = 8))
    (notDbuf : ¬(0x40 ≤ off.toNat ∧ off.toNat < 0x64 ∧ data.length = 1))
    (next : s.schedule = .host (.writeReg off data) :: rest) : ∃ r, step s = .refused r := by
  obtain ⟨r, refused⟩ := classifyWrite_refused notCmd notDbuf
  exact ⟨r, by rw [step_cons next, agentStep, hostStep, windowWrite, refused, andThen_refused]⟩

end

/-- Settles O16: the offset touched is reserved to a read, and lies in neither of the two writes that have a
step. -/
theorem refusedHostAccesses : Obligations.RefusedHostAccesses := by
  intro s off rest
  constructor
  · intro n k inside touched next
    have reserved : ¬Mapped (off.toNat + k) := by unfold Mapped; omega
    exact step_readReg_refused inside reserved next
  · intro data k inside touched next
    have notCmd : ¬(off.toNat = 0 ∧ data.length = 8) := by omega
    have notDbuf : ¬(0x40 ≤ off.toNat ∧ off.toNat < 0x64 ∧ data.length = 1) := by omega
    exact step_writeReg_refused notCmd notDbuf next

end Sys2Proof.Machine
end
